-- ==== Sys2Proof/Word.lean ====
section
/-! DEFINITION. The word types of the core (00_scope.md R7, R13): registers and addresses are 64 bits,
memory is bytes, an instruction is one 32-bit word. -/

namespace Sys2Proof

/-- A register slot, an address or an immediate as the operations see it: `bits64` (R13). -/
abbrev Word := BitVec 64

/-- One byte of memory: `bits8` (R13). -/
abbrev Byte := BitVec 8

/-- An instruction word: `bits32`; ILEN = 32 (R7, R90). -/
abbrev InstWord := BitVec 32

/-- The number of a register slot: a 5-bit field, every value of which names a slot (R92; `bits5` in R6). -/
abbrev RegIdx := BitVec 5

end Sys2Proof
end

