-- ==== Sys2Proof/Config.lean ====
section
/-! DEFINITION. The implementation parameters of the core (00_scope.md R8, R9, R10) and the host's values that
the spec leaves OPEN (92_eei_decisions.md D18, D19). -/

namespace Sys2Proof

/-- The configuration `Cfg = (MEM_BASE, MEM_SIZE)` of R139. The spec leaves both OPEN, so they are fields and
no constants: a statement about every configuration holds whatever they are (log 1). -/
structure Config where
  /-- `MEM_BASE : bits64`, the base physical address of memory (R8). -/
  memBase : Word
  /-- `MEM_SIZE : Nat`, the memory capacity in bytes (R9). -/
  memSize : Nat
  deriving DecidableEq, Repr

/-- The constraint of R10, over unbounded integers. -/
abbrev Config.valid (c : Config) : Prop :=
  1 ≤ c.memSize ∧ c.memBase.toNat + c.memSize ≤ 2 ^ 64

/-- The spec's reference configuration: MEM_BASE 0x8000_0000 (R8), MEM_SIZE 0x10_0000 (R9). -/
def Config.reference : Config where
  memBase := 0x80000000#64
  memSize := 0x100000

/-- OPEN `dump_format` (D18): the text of the diagnostic dump, from `pc` and the 32 labelled slot values. A free value.
R257 leaves open whether the text prints `pc`, so `pc` is an argument: the free value may use it or not (log 11). That
it sees nothing else of the state is the model's DESIGN CHOICE (log 11). -/
opaque Config.dumpFormat : Word → List (String × Word) → String

/-- OPEN: the status with which the host exits when its argument count is wrong. The spec says only that it is
not zero (R255), so `Machine.usageStatus` makes it so. A free value. -/
opaque Config.usageExitStatus : Int

end Sys2Proof
end

