-- ==== Sys2Proof/Syntax.lean ====
section
/-! DEFINITION. The instructions: one constructor per row of spec/opcode_table.json, and the operation names `Op`
that dispatch selects (30_encoding.md R109). -/

namespace Sys2Proof

/-- The format class an opcode selects (R103). -/
inductive OpClass where
  | rType | iType | sType
  deriving DecidableEq, Repr

/-- The operations of the dispatch table (R109), in its order. -/
inductive Op where
  | add | sub | sll | slt | sltu | xor | srl | sra | or | and
  | addi | slli | slti | sltiu | xori | srli | srai | ori | andi
  | sb | sh | sw | sd
  deriving DecidableEq, Repr

/-- The class of each operation (R2, R103). -/
def Op.opClass : Op → OpClass
  | .add | .sub | .sll | .slt | .sltu | .xor | .srl | .sra | .or | .and => .rType
  | .addi | .slli | .slti | .sltiu | .xori | .srli | .srai | .ori | .andi => .iType
  | .sb | .sh | .sw | .sd => .sType

/-- The instructions with their operands.
A register operand is its 5-bit number (R92). A 12-bit immediate is the integer it stands for (R114: -2048..2047),
a shift amount its 5 bits (R94). `funct7` is the field that dispatch does not look at for this operation (R102,
`funct7_ignored` in the table): it is kept so that no bit of a word is lost, and no meaning reads it. -/
inductive Instr where
  | add (rd rs1 rs2 : RegIdx)
  | sub (rd rs1 rs2 : RegIdx)
  | sll (rd rs1 rs2 : RegIdx) (funct7 : BitVec 7)
  | slt (rd rs1 rs2 : RegIdx) (funct7 : BitVec 7)
  | sltu (rd rs1 rs2 : RegIdx) (funct7 : BitVec 7)
  | xor (rd rs1 rs2 : RegIdx) (funct7 : BitVec 7)
  | srl (rd rs1 rs2 : RegIdx)
  | sra (rd rs1 rs2 : RegIdx)
  | or (rd rs1 rs2 : RegIdx) (funct7 : BitVec 7)
  | and (rd rs1 rs2 : RegIdx) (funct7 : BitVec 7)
  | addi (rd rs1 : RegIdx) (imm : Int)
  | slli (rd rs1 : RegIdx) (shamt : BitVec 5) (funct7 : BitVec 7)
  | slti (rd rs1 : RegIdx) (imm : Int)
  | sltiu (rd rs1 : RegIdx) (imm : Int)
  | xori (rd rs1 : RegIdx) (imm : Int)
  | srli (rd rs1 : RegIdx) (shamt : BitVec 5)
  | srai (rd rs1 : RegIdx) (shamt : BitVec 5)
  | ori (rd rs1 : RegIdx) (imm : Int)
  | andi (rd rs1 : RegIdx) (imm : Int)
  | sb (rs1 rs2 : RegIdx) (imm : Int)
  | sh (rs1 rs2 : RegIdx) (imm : Int)
  | sw (rs1 rs2 : RegIdx) (imm : Int)
  | sd (rs1 rs2 : RegIdx) (imm : Int)
  deriving DecidableEq, Repr

/-- The operation an instruction performs. -/
def Instr.op : Instr → Op
  | .add _ _ _ => .add
  | .sub _ _ _ => .sub
  | .sll _ _ _ _ => .sll
  | .slt _ _ _ _ => .slt
  | .sltu _ _ _ _ => .sltu
  | .xor _ _ _ _ => .xor
  | .srl _ _ _ => .srl
  | .sra _ _ _ => .sra
  | .or _ _ _ _ => .or
  | .and _ _ _ _ => .and
  | .addi _ _ _ => .addi
  | .slli _ _ _ _ => .slli
  | .slti _ _ _ => .slti
  | .sltiu _ _ _ => .sltiu
  | .xori _ _ _ => .xori
  | .srli _ _ _ => .srli
  | .srai _ _ _ => .srai
  | .ori _ _ _ => .ori
  | .andi _ _ _ => .andi
  | .sb _ _ _ => .sb
  | .sh _ _ _ => .sh
  | .sw _ _ _ => .sw
  | .sd _ _ _ => .sd

/-- The slot an instruction names as its destination; the stores name none (R36, R200). -/
def Instr.dest : Instr → Option RegIdx
  | .add rd _ _ => some rd
  | .sub rd _ _ => some rd
  | .sll rd _ _ _ => some rd
  | .slt rd _ _ _ => some rd
  | .sltu rd _ _ _ => some rd
  | .xor rd _ _ _ => some rd
  | .srl rd _ _ => some rd
  | .sra rd _ _ => some rd
  | .or rd _ _ _ => some rd
  | .and rd _ _ _ => some rd
  | .addi rd _ _ => some rd
  | .slli rd _ _ _ => some rd
  | .slti rd _ _ => some rd
  | .sltiu rd _ _ => some rd
  | .xori rd _ _ => some rd
  | .srli rd _ _ => some rd
  | .srai rd _ _ => some rd
  | .ori rd _ _ => some rd
  | .andi rd _ _ => some rd
  | .sb _ _ _ => none
  | .sh _ _ _ => none
  | .sw _ _ _ => none
  | .sd _ _ _ => none

end Sys2Proof
end

