-- ==== Sys2Proof/WellFormed.lean ====
section
/-! DEFINITION. Which instruction terms have an encoding: the one operand whose type is wider than its field is
the 12-bit immediate (30_encoding.md R93, R95, R114). Register numbers, shift amounts and funct7 are bit fields
of the encoding's own width, so every value of theirs is well-formed (R92, R94, R102). -/

namespace Sys2Proof

/-- The range of a 12-bit immediate, -2048 .. 2047 (R93, R95). -/
def immInRange (imm : Int) : Bool :=
  decide (-2048 ≤ imm) && decide (imm ≤ 2047)

/-- The instruction has an encoding. -/
def Instr.wellFormed : Instr → Bool
  | .add _ _ _ => true
  | .sub _ _ _ => true
  | .sll _ _ _ _ => true
  | .slt _ _ _ _ => true
  | .sltu _ _ _ _ => true
  | .xor _ _ _ _ => true
  | .srl _ _ _ => true
  | .sra _ _ _ => true
  | .or _ _ _ _ => true
  | .and _ _ _ _ => true
  | .addi _ _ imm => immInRange imm
  | .slli _ _ _ _ => true
  | .slti _ _ imm => immInRange imm
  | .sltiu _ _ imm => immInRange imm
  | .xori _ _ imm => immInRange imm
  | .srli _ _ _ => true
  | .srai _ _ _ => true
  | .ori _ _ imm => immInRange imm
  | .andi _ _ imm => immInRange imm
  | .sb _ _ imm => immInRange imm
  | .sh _ _ imm => immInRange imm
  | .sw _ _ imm => immInRange imm
  | .sd _ _ imm => immInRange imm

end Sys2Proof
end

