-- ==== Sys2Proof/Decode.lean ====
section
/-! DEFINITION. The instruction_decoder: the fields and immediates of a word (30_encoding.md R91-R101), dispatch
(R102-R109), decoding of words and of bytes, and the encoder written from the formats of R100. -/

namespace Sys2Proof

/-! ### Fields (R91) -/

/-- `opcode = w[6:0]` (R91). -/
def opcodeOf (w : InstWord) : BitVec 7 := w.extractLsb' 0 7
/-- `rd = w[11:7]` (R91). -/
def rdOf (w : InstWord) : RegIdx := w.extractLsb' 7 5
/-- `funct3 = w[14:12]` (R91). -/
def funct3Of (w : InstWord) : BitVec 3 := w.extractLsb' 12 3
/-- `rs1 = w[19:15]` (R91). -/
def rs1Of (w : InstWord) : RegIdx := w.extractLsb' 15 5
/-- `rs2 = w[24:20]` (R91). -/
def rs2Of (w : InstWord) : RegIdx := w.extractLsb' 20 5
/-- `funct7 = w[31:25]` (R91). -/
def funct7Of (w : InstWord) : BitVec 7 := w.extractLsb' 25 7

/-! ### Immediates (R93-R99) -/

/-- `shamt = w[24:20]`, five bits (R94; 90_conflicts.md C5). -/
def shamtOf (w : InstWord) : BitVec 5 := w.extractLsb' 20 5
/-- `imm_I = sext_12(w[31:20])` (R93). -/
def immIOf (w : InstWord) : Word := (w.extractLsb' 20 12).signExtend 64
/-- `imm_S = sext_12(w[31:25], w[11:7] joined)` (R95). -/
def immSOf (w : InstWord) : Word := (w.extractLsb' 25 7 ++ w.extractLsb' 7 5).signExtend 64
/-- `imm_B = sext_13(w[31], w[7], w[30:25], w[11:8], 0 joined)` (R96). -/
def immBOf (w : InstWord) : Word :=
  (w.extractLsb' 31 1 ++ w.extractLsb' 7 1 ++ w.extractLsb' 25 6 ++ w.extractLsb' 8 4 ++ 0#1).signExtend 64
/-- `imm_U = sext_32(w[31:12], 0x000 joined)` (R97; 90_conflicts.md C1). -/
def immUOf (w : InstWord) : Word := (w.extractLsb' 12 20 ++ 0#12).signExtend 64
/-- `imm_J = sext_21(w[31], w[19:12], w[20], w[30:21], 0 joined)` (R98). -/
def immJOf (w : InstWord) : Word :=
  (w.extractLsb' 31 1 ++ w.extractLsb' 12 8 ++ w.extractLsb' 20 1 ++ w.extractLsb' 21 10 ++ 0#1).signExtend 64

/-- All the decoder's field outputs; it computes every one for every word (R6, R101). -/
structure Fields where
  opcode : BitVec 7
  rd     : RegIdx
  rs1    : RegIdx
  rs2    : RegIdx
  funct3 : BitVec 3
  funct7 : BitVec 7
  shamt  : BitVec 5
  immI   : Word
  immS   : Word
  immB   : Word
  immU   : Word
  immJ   : Word
  deriving DecidableEq, Repr

/-- The `fields(w)` of R139. -/
def fieldsOf (w : InstWord) : Fields where
  opcode := opcodeOf w
  rd := rdOf w
  rs1 := rs1Of w
  rs2 := rs2Of w
  funct3 := funct3Of w
  funct7 := funct7Of w
  shamt := shamtOf w
  immI := immIOf w
  immS := immSOf w
  immB := immBOf w
  immU := immUOf w
  immJ := immJOf w

/-! ### Dispatch (R102-R109) -/

/-- R_TYPE: funct3 selects, and funct7 only for ADDSUB and SR (R104, R105). -/
def dispatchR (funct3 : BitVec 3) (funct7 : BitVec 7) : Option Op :=
  match funct3.toNat with
  | 0 => if funct7 = 0x00#7 then some .add else if funct7 = 0x20#7 then some .sub else none
  | 1 => some .sll
  | 2 => some .slt
  | 3 => some .sltu
  | 4 => some .xor
  | 5 => if funct7 = 0x00#7 then some .srl else if funct7 = 0x20#7 then some .sra else none
  | 6 => some .or
  | 7 => some .and
  | _ => none

/-- I_TYPE: funct3 selects, and funct7 only for SRI (R106, R107). -/
def dispatchI (funct3 : BitVec 3) (funct7 : BitVec 7) : Option Op :=
  match funct3.toNat with
  | 0 => some .addi
  | 1 => some .slli
  | 2 => some .slti
  | 3 => some .sltiu
  | 4 => some .xori
  | 5 => if funct7 = 0x00#7 then some .srli else if funct7 = 0x20#7 then some .srai else none
  | 6 => some .ori
  | 7 => some .andi
  | _ => none

/-- S_TYPE: funct3 0 to 3 are the four stores, 4 to 7 are unrecognized; funct7 is immediate bits (R108). -/
def dispatchS (funct3 : BitVec 3) : Option Op :=
  match funct3.toNat with
  | 0 => some .sb
  | 1 => some .sh
  | 2 => some .sw
  | 3 => some .sd
  | _ => none

/-- The complete dispatch function (R109); `none` is its `Unrecognized`. -/
def dispatch (opcode : BitVec 7) (funct3 : BitVec 3) (funct7 : BitVec 7) : Option Op :=
  if opcode = 0x33#7 then dispatchR funct3 funct7
  else if opcode = 0x13#7 then dispatchI funct3 funct7
  else if opcode = 0x23#7 then dispatchS funct3
  else none

/-- The instruction that a selected operation and the word's fields make. -/
def assemble (f : Fields) : Op → Instr
  | .add => .add f.rd f.rs1 f.rs2
  | .sub => .sub f.rd f.rs1 f.rs2
  | .sll => .sll f.rd f.rs1 f.rs2 f.funct7
  | .slt => .slt f.rd f.rs1 f.rs2 f.funct7
  | .sltu => .sltu f.rd f.rs1 f.rs2 f.funct7
  | .xor => .xor f.rd f.rs1 f.rs2 f.funct7
  | .srl => .srl f.rd f.rs1 f.rs2
  | .sra => .sra f.rd f.rs1 f.rs2
  | .or => .or f.rd f.rs1 f.rs2 f.funct7
  | .and => .and f.rd f.rs1 f.rs2 f.funct7
  | .addi => .addi f.rd f.rs1 f.immI.toInt
  | .slli => .slli f.rd f.rs1 f.shamt f.funct7
  | .slti => .slti f.rd f.rs1 f.immI.toInt
  | .sltiu => .sltiu f.rd f.rs1 f.immI.toInt
  | .xori => .xori f.rd f.rs1 f.immI.toInt
  | .srli => .srli f.rd f.rs1 f.shamt
  | .srai => .srai f.rd f.rs1 f.shamt
  | .ori => .ori f.rd f.rs1 f.immI.toInt
  | .andi => .andi f.rd f.rs1 f.immI.toInt
  | .sb => .sb f.rs1 f.rs2 f.immS.toInt
  | .sh => .sh f.rs1 f.rs2 f.immS.toInt
  | .sw => .sw f.rs1 f.rs2 f.immS.toInt
  | .sd => .sd f.rs1 f.rs2 f.immS.toInt

/-- Why bytes are no instruction. -/
inductive DecodeError where
  /-- No operation matches the word's triple: `Unrecognized(opcode, funct3, funct7)` (R109). -/
  | unrecognized (opcode : BitVec 7) (funct3 : BitVec 3) (funct7 : BitVec 7)
  /-- Fewer than the four bytes of a word (R90). A fetch never gives this: it reads four bytes or fails. -/
  | truncated
  deriving DecidableEq, Repr

/-- Decode one instruction word (R101, R109): an instruction, or the triple that no operation matches. -/
def decode (w : InstWord) : Except DecodeError Instr :=
  match dispatch (opcodeOf w) (funct3Of w) (funct7Of w) with
  | some op => .ok (assemble (fieldsOf w) op)
  | none => .error (.unrecognized (opcodeOf w) (funct3Of w) (funct7Of w))

/-- The bytes of an instruction word as memory holds them: least significant byte at the lowest address (R67). -/
def wordBytes (w : InstWord) : List Byte :=
  [w.extractLsb' 0 8, w.extractLsb' 8 8, w.extractLsb' 16 8, w.extractLsb' 24 8]

/-- Decode the instruction at the head of a list of bytes, and give the bytes after it (R67, R90). -/
def decodeBytes : List Byte → Except DecodeError (Instr × List Byte)
  | b0 :: b1 :: b2 :: b3 :: rest =>
    match decode ((b3 ++ b2 ++ b1 ++ b0).cast rfl) with
    | .ok i => .ok (i, rest)
    | .error e => .error e
  | _ => .error .truncated

/-- The instruction this decoder reads from an instruction whose bits are `w`, numbered as spec/opcode_table.json
numbers them; the bits from `nbits` up are 0. -/
def decodeTableWord (nbits w : Nat) : Option Instr :=
  match decodeBytes (wordBytes (BitVec.ofNat 32 (w % 2 ^ nbits))) with
  | .ok (i, _) => some i
  | .error _ => none

/-! ### Encoding (R100, R104-R108) -/

/-- Format R: funct7, rs2, rs1, funct3, rd, opcode from bit 31 down (R100). -/
def formatR (funct7 : BitVec 7) (rs2 rs1 : RegIdx) (funct3 : BitVec 3) (rd : RegIdx) (opcode : BitVec 7) : InstWord :=
  (funct7 ++ rs2 ++ rs1 ++ funct3 ++ rd ++ opcode).cast rfl

/-- Format I: imm[11:0], rs1, funct3, rd, opcode (R100). -/
def formatI (imm : BitVec 12) (rs1 : RegIdx) (funct3 : BitVec 3) (rd : RegIdx) (opcode : BitVec 7) : InstWord :=
  (imm ++ rs1 ++ funct3 ++ rd ++ opcode).cast rfl

/-- Format S: imm[11:5], rs2, rs1, funct3, imm[4:0], opcode (R100). -/
def formatS (imm : BitVec 12) (rs2 rs1 : RegIdx) (funct3 : BitVec 3) (opcode : BitVec 7) : InstWord :=
  (imm.extractLsb' 5 7 ++ rs2 ++ rs1 ++ funct3 ++ imm.extractLsb' 0 5 ++ opcode).cast rfl

/-- The twelve bits of an immediate operand. -/
def immBits (imm : Int) : BitVec 12 := BitVec.ofInt 12 imm

/-- The word of an instruction, from the encoding tables of R104 to R108. -/
def encode : Instr → InstWord
  | .add rd rs1 rs2 => formatR 0x00 rs2 rs1 0 rd 0x33
  | .sub rd rs1 rs2 => formatR 0x20 rs2 rs1 0 rd 0x33
  | .sll rd rs1 rs2 funct7 => formatR funct7 rs2 rs1 1 rd 0x33
  | .slt rd rs1 rs2 funct7 => formatR funct7 rs2 rs1 2 rd 0x33
  | .sltu rd rs1 rs2 funct7 => formatR funct7 rs2 rs1 3 rd 0x33
  | .xor rd rs1 rs2 funct7 => formatR funct7 rs2 rs1 4 rd 0x33
  | .srl rd rs1 rs2 => formatR 0x00 rs2 rs1 5 rd 0x33
  | .sra rd rs1 rs2 => formatR 0x20 rs2 rs1 5 rd 0x33
  | .or rd rs1 rs2 funct7 => formatR funct7 rs2 rs1 6 rd 0x33
  | .and rd rs1 rs2 funct7 => formatR funct7 rs2 rs1 7 rd 0x33
  | .addi rd rs1 imm => formatI (immBits imm) rs1 0 rd 0x13
  | .slli rd rs1 shamt funct7 => formatR funct7 shamt rs1 1 rd 0x13
  | .slti rd rs1 imm => formatI (immBits imm) rs1 2 rd 0x13
  | .sltiu rd rs1 imm => formatI (immBits imm) rs1 3 rd 0x13
  | .xori rd rs1 imm => formatI (immBits imm) rs1 4 rd 0x13
  | .srli rd rs1 shamt => formatR 0x00 shamt rs1 5 rd 0x13
  | .srai rd rs1 shamt => formatR 0x20 shamt rs1 5 rd 0x13
  | .ori rd rs1 imm => formatI (immBits imm) rs1 6 rd 0x13
  | .andi rd rs1 imm => formatI (immBits imm) rs1 7 rd 0x13
  | .sb rs1 rs2 imm => formatS (immBits imm) rs2 rs1 0 0x23
  | .sh rs1 rs2 imm => formatS (immBits imm) rs2 rs1 1 0x23
  | .sw rs1 rs2 imm => formatS (immBits imm) rs2 rs1 2 0x23
  | .sd rs1 rs2 imm => formatS (immBits imm) rs2 rs1 3 0x23

/-- The bytes of an instruction in a program image (R251). -/
def encodeBytes (i : Instr) : List Byte := wordBytes (encode i)

end Sys2Proof
end

