-- ==== Sys2Proof/Machine/State.lean ====
section
/-! DEFINITION. The state of the core: the tuple of 10_state.md R49 and, carried beside it, the configuration of
R139; the reasons a step could stop; the state after reset (R50-R53, 70_reset_and_hazards.md R250). -/

namespace Sys2Proof.Machine

/-- `run`: Running or Halted (R42). -/
inductive RunState where
  | running | halted
  deriving DecidableEq, Repr

/-- The kind of access an OutOfBounds halt records (R43). -/
inductive AccessKind where
  | fetch | store
  deriving DecidableEq, Repr

/-- The access widths {8, 16, 32, 64} (R7, R70). -/
inductive Width where
  | w8 | w16 | w32 | w64
  deriving DecidableEq, Repr

/-- `halt_reason` (R43). `none` while Running, set once by the halting step. -/
inductive HaltReason where
  /-- Not halted. -/
  | none
  /-- Phase 0 found `pc = 0` (R131). -/
  | sentinelPc
  /-- Dispatch has no operation for the word's triple (R135, R222). -/
  | unrecognizedInstruction (opcode : BitVec 7) (funct3 : BitVec 3) (funct7 : BitVec 7)
  /-- An access of `width` bits at `addr` touches a byte outside memory (R132, R200, R223, R224). -/
  | outOfBounds (kind : AccessKind) (addr : Word) (width : Width)
  deriving DecidableEq, Repr

/-- The register file: 32 slots of 64 bits (R30). -/
abbrev RegFile := Vector Word 32

/-- Memory: (address, byte) pairs in one canonical form, `Memory.wf` in Machine/Ops.lean. The byte at offset `k`
of the array is at address `MEM_BASE + k` (R44). -/
abbrev Memory := List Host.Cell

/-- The state tuple of R49, with the configuration of the step beside it. -/
structure State where
  /-- `x`, the 32 register slots (R30-R34). Slot 0 is a slot like any other (R32). -/
  x : RegFile
  /-- `pc`, 64 bits (R37). -/
  pc : Word
  /-- `mem` (R44). -/
  mem : Memory
  /-- `run` (R42). -/
  run : RunState
  /-- `halt_reason` (R43). -/
  haltReason : HaltReason
  /-- `cfg = (MEM_BASE, MEM_SIZE)`: a parameter of the step, no architectural state (R49). It is held here so that
  one `step` serves every configuration; no step writes it (log 1). -/
  cfg : Config
  deriving DecidableEq, Repr

/-- Why the machine would stop with no next state. No step of this core does: each of its errors is a next state in
which `run = Halted` (R139, R220, R221). -/
inductive Fault where
  /-- Raised by `boot` only, for a configuration that breaks R10. No such core exists, so no run of it does. Safe. -/
  | invalidConfiguration
  deriving DecidableEq, Repr

/-- Why the model would have no meaning for an input. -/
inductive Refusal where
  /-- Raised by an arm of `exec` whose instruction has no meaning yet. No arm does: all 23 have theirs. Safe. -/
  | notModelled (mnemonic : String)
  /-- Raised by `boot` only: `ImageLoadFailure`, the image cannot be read or is longer than memory, so the core does
  not start (R252, R253; the `refuse` of 93_implementation_defined.md I11). Safe. -/
  | imageLoadFailure
  deriving DecidableEq, Repr

/-- The machine right after reset in the reference configuration, with no image loaded: `pc = MEM_BASE` (R50), slot 0
zero (R51), Running with no halt reason (R52), nothing listed in memory (R53).
The configuration is the spec's reference one (R8, R9; log 1). Slots 1..31 are OPEN in the spec: zero here is the
model's DESIGN CHOICE (log 2). Memory outside an image is OPEN: it reads as zero here (log 3). `boot` in
Machine/Boot.lean takes every one of these as an argument. -/
def State.reset : State where
  x := Vector.replicate 32 0#64
  pc := Config.reference.memBase
  mem := []
  run := .running
  haltReason := .none
  cfg := Config.reference

end Sys2Proof.Machine
end

