-- ==== Sys2Proof/Machine/Ops.lean ====
section
/-! DEFINITION. The operations every step is made of: the byte array in its canonical form, the bounds check, the
load and store primitives (20_memory.md R61-R65), the register ports (00_scope.md R6, R15), the phases before
dispatch (40_fetch_dispatch.md R131-R134), and the halt, which is all the core has for an exception
(60_exceptions.md R220). There is no return from it (R228). -/

namespace Sys2Proof.Machine

/-! ### Widths -/

/-- The bytes of an access, n = 1, 2, 4, 8 (R70). -/
def Width.bytes : Width → Nat
  | .w8 => 1
  | .w16 => 2
  | .w32 => 4
  | .w64 => 8

/-- The width in bits, 8n (R43, R70). -/
def Width.bits (w : Width) : Nat := 8 * w.bytes

/-! ### The byte array -/

/-- What an address that the list does not name reads as. DESIGN CHOICE (log 3): the spec leaves the fill OPEN. -/
def unlistedByte : Byte := 0#8

/-- The one canonical form of a memory: addresses strictly rising, no entry equal to what an unlisted address reads
as. -/
abbrev Memory.wf (m : Memory) : Prop :=
  m.Pairwise (fun c d => c.1 < d.1) ∧ ∀ c ∈ m, c.2 ≠ unlistedByte

/-- The byte at an address. -/
def Memory.byteAt : Memory → Nat → Byte
  | [], _ => unlistedByte
  | (a', b') :: rest, a => if a' = a then b' else Memory.byteAt rest a

/-- The memory with no entry at an address. -/
def Memory.erase : Memory → Nat → Memory
  | [], _ => []
  | (a', b') :: rest, a => if a' = a then Memory.erase rest a else (a', b') :: Memory.erase rest a

/-- The memory with an entry put where its address belongs. -/
def Memory.insertCell : Memory → Nat → Byte → Memory
  | [], a, b => [(a, b)]
  | (a', b') :: rest, a, b =>
    if a < a' then (a, b) :: (a', b') :: rest else (a', b') :: Memory.insertCell rest a b

/-- Write one byte, keeping the canonical form: writing what an unlisted address reads as removes the entry. -/
def Memory.setByte (m : Memory) (a : Nat) (b : Byte) : Memory :=
  if b = unlistedByte then m.erase a else (m.erase a).insertCell a b

/-- The bytes at `addr, addr + 1, …` as one value, least significant byte first, zero-extended (R63). -/
def Memory.readLE (m : Memory) (addr : Word) : Nat → Word
  | 0 => 0#64
  | n + 1 => (m.byteAt addr.toNat).setWidth 64 ||| (Memory.readLE m (addr + 1#64) n <<< 8)

/-- Write the low `n` bytes of `v` at `addr, addr + 1, …`, least significant byte first (R64). -/
def Memory.writeLE (m : Memory) (addr : Word) : Nat → Word → Memory
  | 0, _ => m
  | n + 1, v => Memory.writeLE (m.setByte addr.toNat (v.setWidth 8)) (addr + 1#64) n (v >>> 8)

/-! ### The load_store_unit -/

/-- `off(addr) = (addr - MEM_BASE) mod 2^64` (R61). -/
def offset (c : Config) (addr : Word) : Nat := (addr - c.memBase).toNat

/-- An access of `n` bytes at `addr` is in bounds: `off(addr) + n <= MEM_SIZE` over unbounded integers (R62). -/
def inBounds (c : Config) (addr : Word) (n : Nat) : Bool := decide (offset c addr + n ≤ c.memSize)

/-- The load primitive `MemRead(addr, n)`; the caller gives the kind a failure records (R63). -/
def memRead (c : Config) (m : Memory) (kind : AccessKind) (addr : Word) (w : Width) : Except HaltReason Word :=
  if inBounds c addr w.bytes then .ok (m.readLE addr w.bytes) else .error (.outOfBounds kind addr w)

/-- The store primitive `MemWrite(addr, n, v)`: all the bytes, or none and the failure (R64, R65). -/
def memWrite (c : Config) (m : Memory) (addr : Word) (w : Width) (v : Word) : Except HaltReason Memory :=
  if inBounds c addr w.bytes then .ok (m.writeLE addr w.bytes v) else .error (.outOfBounds .store addr w)

/-! ### The register_file -/

/-- A read port: `rd1 = x[ra1]` (R6). -/
def RegFile.read (x : RegFile) (r : RegIdx) : Word := x.get ⟨r.toNat, r.isLt⟩

/-- The write port: `x[wa] <- wd`, slot 0 included (R6, R32). -/
def RegFile.write (x : RegFile) (r : RegIdx) (v : Word) : RegFile := x.set r.toNat v r.isLt

/-- `x[r]` (R15). -/
def State.reg (s : State) (r : RegIdx) : Word := RegFile.read s.x r

/-- `x[r] <- v` (R15, R32). -/
def State.setReg (s : State) (r : RegIdx) (v : Word) : State := { s with x := RegFile.write s.x r v }

/-! ### Halting -/

/-- What `raise <Cause>` does: `run <- Halted`, `halt_reason <- <Cause>`, all else as the step has left it (R15,
R221). The core has no other exception entry (R220). -/
def State.halt (s : State) (r : HaltReason) : State := { s with run := .halted, haltReason := r }

/-! ### The phases before dispatch -/

/-- Phase 0: the sentinel check, `pc = 0` (R131). -/
def State.atSentinel (s : State) : Bool := decide (s.pc = 0#64)

/-- Phase 1: `w <- MemRead(pc, 4)[31:0]`, or the fetch's OutOfBounds (R132). -/
def State.fetch (s : State) : Except HaltReason InstWord :=
  match memRead s.cfg s.mem .fetch s.pc .w32 with
  | .ok v => .ok (v.setWidth 32)
  | .error r => .error r

/-- Phase 2: `pc <- (pc + 4) mod 2^64` (R133, R39). -/
def State.advancePc (s : State) : State := { s with pc := s.pc + 4#64 }

/-- Phase 3: `x[0] <- 0` (R134). -/
def State.clearSlot0 (s : State) : State := s.setReg 0#5 0#64

/-- The state in which phases 4 and 5 work: `s2` of R139. -/
def State.afterFetch (s : State) : State := s.advancePc.clearSlot0

/-! ### Phase 5: write-back and store -/

/-- Complete an R-type or I-type operation: `x[rd] <- result`, including `rd = 0` (R160, R180). -/
def writeBack (rd : RegIdx) (result : Word) (s : State) : Host.Outcome State Fault Refusal :=
  .next (s.setReg rd result)

/-- Perform `MemWrite(addr, n, v)` for a store: the bytes written, or nothing written and the core halted with
`OutOfBounds(store, addr, 8n)` (R200). -/
def store (addr : Word) (w : Width) (v : Word) (s : State) : Host.Outcome State Fault Refusal :=
  match memWrite s.cfg s.mem addr w v with
  | .ok m => .next { s with mem := m }
  | .error r => .next (s.halt r)

/-! ### Placing a word -/

/-- The state with an instruction word where the next fetch reads it, and Running so that a step fetches. -/
def State.placeWord (s : State) (w : InstWord) : State :=
  { s with mem := s.mem.writeLE s.pc 4 (w.setWidth 64), run := .running, haltReason := .none }

end Sys2Proof.Machine
end

