-- ==== Sys2Proof/Machine/Flags.lean ====
section
/-! DEFINITION. The core has no flags (10_state.md R45): a comparison's result goes to a register as 0 or 1, and
nothing else records it. These are the two comparisons, and the word a result is. -/

namespace Sys2Proof.Machine

/-- `s(a) < s(b)`: the signed comparison of 64-bit values (R13, R15). -/
def ltSigned (a b : Word) : Bool := decide (a.toInt < b.toInt)

/-- `u(a) < u(b)`: the unsigned comparison of 64-bit values (R13, R15). -/
def ltUnsigned (a b : Word) : Bool := decide (a.toNat < b.toNat)

/-- `c ? 1 : 0` (R164, R165, R183, R184). -/
def boolWord (c : Bool) : Word := if c then 1#64 else 0#64

end Sys2Proof.Machine
end

