-- ==== Sys2Proof/Machine/Operands.lean ====
section
/-! DEFINITION. The operand forms: register, immediate, the two shift amounts, and the one addressing mode. -/

namespace Sys2Proof.Machine

/-- The `bits64` of an immediate operand, sign-extended (30_encoding.md R93, R95; 42_i_type_alu.md R180). -/
def immWord (imm : Int) : Word := BitVec.ofInt 64 imm

/-- The shift amount of an R-type shift: `u(x[rs2][5:0])`, 0..63 (41_r_type_alu.md R163, R167, R168). -/
def regShiftAmount (b : Word) : Nat := (b.extractLsb' 0 6).toNat

/-- The shift amount of an I-type shift: `u(shamt)`, 0..31 (30_encoding.md R94). -/
def immShiftAmount (shamt : BitVec 5) : Nat := shamt.toNat

/-- The effective address of a store: `(x[rs1] + imm_S) mod 2^64`, the only addressing mode (43_s_type_store.md
R200). -/
def effectiveAddress (s : State) (rs1 : RegIdx) (imm : Int) : Word := s.reg rs1 + immWord imm

/-- The operands of a store: `data, imm(base)` and its width (R200, R70). -/
structure StoreForm where
  base : RegIdx
  data : RegIdx
  imm : Int
  width : Width
  deriving DecidableEq, Repr

/-- The operands of an instruction that stores; `none` for one that does not (R70, R75). -/
def storeForm : Instr → Option StoreForm
  | .sb rs1 rs2 imm => some { base := rs1, data := rs2, imm := imm, width := .w8 }
  | .sh rs1 rs2 imm => some { base := rs1, data := rs2, imm := imm, width := .w16 }
  | .sw rs1 rs2 imm => some { base := rs1, data := rs2, imm := imm, width := .w32 }
  | .sd rs1 rs2 imm => some { base := rs1, data := rs2, imm := imm, width := .w64 }
  | .add _ _ _ | .sub _ _ _ | .sll _ _ _ _ | .slt _ _ _ _ | .sltu _ _ _ _ => none
  | .xor _ _ _ _ | .srl _ _ _ | .sra _ _ _ | .or _ _ _ _ | .and _ _ _ _ => none
  | .addi _ _ _ | .slli _ _ _ _ | .slti _ _ _ | .sltiu _ _ _ | .xori _ _ _ => none
  | .srli _ _ _ | .srai _ _ _ | .ori _ _ _ | .andi _ _ _ => none

end Sys2Proof.Machine
end

