-- ==== Sys2Proof/Machine/IType.lean ====
section
/-! DEFINITION. The nine I-type operations (42_i_type_alu.md). Each reads `x[rs1]`, then writes `x[rd]` (R180). -/

namespace Sys2Proof.Machine

/-- ADDI: `x[rd] <- (x[rs1] + imm_I) mod 2^64` (R181). -/
def execAddi (rd rs1 : RegIdx) (imm : Int) (s : State) : Host.Outcome State Fault Refusal :=
  writeBack rd (s.reg rs1 + immWord imm) s

/-- SLLI: `x[rd] <- (x[rs1] << u(shamt)) mod 2^64` (R182). -/
def execSlli (rd rs1 : RegIdx) (shamt : BitVec 5) (s : State) : Host.Outcome State Fault Refusal :=
  writeBack rd (s.reg rs1 <<< immShiftAmount shamt) s

/-- SLTI: `x[rd] <- (s(x[rs1]) < s(imm_I)) ? 1 : 0` (R183). -/
def execSlti (rd rs1 : RegIdx) (imm : Int) (s : State) : Host.Outcome State Fault Refusal :=
  writeBack rd (boolWord (ltSigned (s.reg rs1) (immWord imm))) s

/-- SLTIU: `x[rd] <- (u(x[rs1]) < u(imm_I)) ? 1 : 0`, the immediate sign-extended first (R184). -/
def execSltiu (rd rs1 : RegIdx) (imm : Int) (s : State) : Host.Outcome State Fault Refusal :=
  writeBack rd (boolWord (ltUnsigned (s.reg rs1) (immWord imm))) s

/-- XORI: `x[rd] <- x[rs1] ^ imm_I` (R185). -/
def execXori (rd rs1 : RegIdx) (imm : Int) (s : State) : Host.Outcome State Fault Refusal :=
  writeBack rd (s.reg rs1 ^^^ immWord imm) s

/-- SRLI: `x[rd] <- x[rs1] >> u(shamt)`, filling with zeros (R186). -/
def execSrli (rd rs1 : RegIdx) (shamt : BitVec 5) (s : State) : Host.Outcome State Fault Refusal :=
  writeBack rd (s.reg rs1 >>> immShiftAmount shamt) s

/-- SRAI: `x[rd] <- x[rs1] >>s u(shamt)`, filling with copies of bit 63 (R187). -/
def execSrai (rd rs1 : RegIdx) (shamt : BitVec 5) (s : State) : Host.Outcome State Fault Refusal :=
  writeBack rd ((s.reg rs1).sshiftRight (immShiftAmount shamt)) s

/-- ORI: `x[rd] <- x[rs1] | imm_I` (R188). -/
def execOri (rd rs1 : RegIdx) (imm : Int) (s : State) : Host.Outcome State Fault Refusal :=
  writeBack rd (s.reg rs1 ||| immWord imm) s

/-- ANDI: `x[rd] <- x[rs1] & imm_I` (R189). -/
def execAndi (rd rs1 : RegIdx) (imm : Int) (s : State) : Host.Outcome State Fault Refusal :=
  writeBack rd (s.reg rs1 &&& immWord imm) s

end Sys2Proof.Machine
end

