-- ==== Sys2Proof/Machine/RType.lean ====
section
/-! DEFINITION. The ten R-type operations (41_r_type_alu.md). Each reads both sources, then writes `x[rd]` (R160). -/

namespace Sys2Proof.Machine

/-- ADD: `x[rd] <- (x[rs1] + x[rs2]) mod 2^64` (R161). -/
def execAdd (rd rs1 rs2 : RegIdx) (s : State) : Host.Outcome State Fault Refusal :=
  writeBack rd (s.reg rs1 + s.reg rs2) s

/-- SUB: `x[rd] <- (x[rs1] - x[rs2]) mod 2^64` (R162). -/
def execSub (rd rs1 rs2 : RegIdx) (s : State) : Host.Outcome State Fault Refusal :=
  writeBack rd (s.reg rs1 - s.reg rs2) s

/-- SLL: `x[rd] <- (x[rs1] << u(x[rs2][5:0])) mod 2^64` (R163). -/
def execSll (rd rs1 rs2 : RegIdx) (s : State) : Host.Outcome State Fault Refusal :=
  writeBack rd (s.reg rs1 <<< regShiftAmount (s.reg rs2)) s

/-- SLT: `x[rd] <- (s(x[rs1]) < s(x[rs2])) ? 1 : 0` (R164). -/
def execSlt (rd rs1 rs2 : RegIdx) (s : State) : Host.Outcome State Fault Refusal :=
  writeBack rd (boolWord (ltSigned (s.reg rs1) (s.reg rs2))) s

/-- SLTU: `x[rd] <- (u(x[rs1]) < u(x[rs2])) ? 1 : 0` (R165). -/
def execSltu (rd rs1 rs2 : RegIdx) (s : State) : Host.Outcome State Fault Refusal :=
  writeBack rd (boolWord (ltUnsigned (s.reg rs1) (s.reg rs2))) s

/-- XOR: `x[rd] <- x[rs1] ^ x[rs2]` (R166). -/
def execXor (rd rs1 rs2 : RegIdx) (s : State) : Host.Outcome State Fault Refusal :=
  writeBack rd (s.reg rs1 ^^^ s.reg rs2) s

/-- SRL: `x[rd] <- x[rs1] >> u(x[rs2][5:0])`, filling with zeros (R167). -/
def execSrl (rd rs1 rs2 : RegIdx) (s : State) : Host.Outcome State Fault Refusal :=
  writeBack rd (s.reg rs1 >>> regShiftAmount (s.reg rs2)) s

/-- SRA: `x[rd] <- x[rs1] >>s u(x[rs2][5:0])`, filling with copies of bit 63 (R168). -/
def execSra (rd rs1 rs2 : RegIdx) (s : State) : Host.Outcome State Fault Refusal :=
  writeBack rd ((s.reg rs1).sshiftRight (regShiftAmount (s.reg rs2))) s

/-- OR: `x[rd] <- x[rs1] | x[rs2]` (R169). -/
def execOr (rd rs1 rs2 : RegIdx) (s : State) : Host.Outcome State Fault Refusal :=
  writeBack rd (s.reg rs1 ||| s.reg rs2) s

/-- AND: `x[rd] <- x[rs1] & x[rs2]` (R170). -/
def execAnd (rd rs1 rs2 : RegIdx) (s : State) : Host.Outcome State Fault Refusal :=
  writeBack rd (s.reg rs1 &&& s.reg rs2) s

end Sys2Proof.Machine
end

