-- ==== Sys2Proof/Machine/SType.lean ====
section
/-! DEFINITION. The four stores (43_s_type_store.md). Each does `addr <- x[rs1] + imm_S; MemWrite(addr, n, x[rs2])`
and writes no register (R200). -/

namespace Sys2Proof.Machine

/-- SB: one byte (R201). -/
def execSb (rs1 rs2 : RegIdx) (imm : Int) (s : State) : Host.Outcome State Fault Refusal :=
  store (effectiveAddress s rs1 imm) .w8 (s.reg rs2) s

/-- SH: two bytes (R202). -/
def execSh (rs1 rs2 : RegIdx) (imm : Int) (s : State) : Host.Outcome State Fault Refusal :=
  store (effectiveAddress s rs1 imm) .w16 (s.reg rs2) s

/-- SW: four bytes (R203). -/
def execSw (rs1 rs2 : RegIdx) (imm : Int) (s : State) : Host.Outcome State Fault Refusal :=
  store (effectiveAddress s rs1 imm) .w32 (s.reg rs2) s

/-- SD: eight bytes (R204). -/
def execSd (rs1 rs2 : RegIdx) (imm : Int) (s : State) : Host.Outcome State Fault Refusal :=
  store (effectiveAddress s rs1 imm) .w64 (s.reg rs2) s

end Sys2Proof.Machine
end

