-- ==== Sys2Proof/Machine/Controller.lean ====
section
/-! DEFINITION. The step_controller's sequence of phases (40_fetch_dispatch.md R130-R140). -/

namespace Sys2Proof.Machine

/-- Phases 4 and 5, on the state after phase 3: decode and dispatch the word, then execute it, or halt with the
word's triple (R135, R136). `truncated` cannot come from a whole word. -/
def dispatchWord (w : InstWord) (s : State) : Host.Outcome State Fault Refusal :=
  match decode w with
  | .ok i => exec i s
  | .error _ => .next (s.halt (.unrecognizedInstruction (opcodeOf w) (funct3Of w) (funct7Of w)))

/-- One step, phase by phase, as R139 writes it. -/
def runPhases (s : State) : Host.Outcome State Fault Refusal :=
  match s.run with
  | .halted => .next s
  | .running =>
    if s.atSentinel then .next (s.halt .sentinelPc)
    else
      match s.fetch with
      | .error r => .next (s.halt r)
      | .ok w => dispatchWord w s.afterFetch

end Sys2Proof.Machine
end

