-- ==== Sys2Proof/Machine/Step.lean ====
section
/-! DEFINITION. One step of the core (40_fetch_dispatch.md R139), and the placing of an instruction word where the
next step fetches it. -/

namespace Sys2Proof.Machine

/-- One step: the phases of the step_controller (R139). It answers a next state from every state. -/
def step (s : State) : Host.Outcome State Fault Refusal := runPhases s

/-- `s` with the instruction whose bits are `w` (numbered as spec/opcode_table.json numbers them, the bits from
`nbits` up zero) stored at `pc`, where `step` fetches, and Running so that it fetches. It stands for the image load
of R251 (log 4). -/
def State.withFetchWord (s : State) (nbits w : Nat) : State :=
  s.placeWord (BitVec.ofNat 32 (w % 2 ^ nbits))

end Sys2Proof.Machine
end

