-- ==== Sys2Proof/Machine/Blocks.lean ====
section
/-! DEFINITION. The seven hardware blocks and their interfaces (00_scope.md R5, R6; 92_eei_decisions.md D13), and the
step their composition makes. The step the model runs is `Machine.step`; the two are stated to agree. -/

namespace Sys2Proof.Machine.Blocks

/-- `program_counter`: when `pc_we = 1`, `pc <- pc_d`. `pc_we`/`pc_d` is also the seam that R41 reserves. -/
def programCounter (pcQ : Word) (pcWe : Bool) (pcD : Word) : Word := if pcWe then pcD else pcQ

/-- `load_store_unit`, load side. -/
def lsuLoad (c : Config) (m : Memory) (kind : AccessKind) (addr : Word) (w : Width) : Except HaltReason Word :=
  memRead c m kind addr w

/-- `load_store_unit`, store side. -/
def lsuStore (c : Config) (m : Memory) (addr : Word) (w : Width) (v : Word) : Except HaltReason Memory :=
  memWrite c m addr w v

/-- `fetch_unit`: the word at `pc_q`, or `fetch_fault = OutOfBounds(fetch, pc_q, 32)`. -/
def fetchUnit (c : Config) (m : Memory) (pcQ : Word) : Except HaltReason InstWord :=
  match lsuLoad c m .fetch pcQ .w32 with
  | .ok v => .ok (v.extractLsb' 0 32)
  | .error r => .error r

/-- `instruction_decoder`: every field of the word, and the operation or none. -/
def instructionDecoder (inst : InstWord) : Fields × Option Op :=
  (fieldsOf inst, dispatch (opcodeOf inst) (funct3Of inst) (funct7Of inst))

/-- `register_file`: `x[0] <- 0` when `clear0`, `x[wa] <- wd` when `we`. -/
def registerFile (x : RegFile) (clear0 : Bool) (we : Bool) (wa : RegIdx) (wd : Word) : RegFile :=
  let cleared := if clear0 then x.write 0#5 0#64 else x
  if we then cleared.write wa wd else cleared

/-- `alu_dispatch`: the 64-bit result of the 19 R-type and I-type operations (R161-R170, R181-R189). A store has no
result here; its row answers 0, which the datapath does not use. -/
def aluDispatch (op : Op) (a b imm : Word) (shamt : BitVec 5) : Word :=
  match op with
  | .add => a + b
  | .sub => a - b
  | .sll => a <<< (b &&& 0x3f#64)
  | .slt => if a.slt b then 1#64 else 0#64
  | .sltu => if a.ult b then 1#64 else 0#64
  | .xor => a ^^^ b
  | .srl => a >>> (b &&& 0x3f#64)
  | .sra => a.sshiftRight' (b &&& 0x3f#64)
  | .or => a ||| b
  | .and => a &&& b
  | .addi => a + imm
  | .slli => a <<< shamt
  | .slti => if a.slt imm then 1#64 else 0#64
  | .sltiu => if a.ult imm then 1#64 else 0#64
  | .xori => a ^^^ imm
  | .srli => a >>> shamt
  | .srai => a.sshiftRight' shamt
  | .ori => a ||| imm
  | .andi => a &&& imm
  | .sb => 0#64
  | .sh => 0#64
  | .sw => 0#64
  | .sd => 0#64

/-- The width of each store; `none` for the operations that do not store (R70). -/
def storeWidth : Op → Option Width
  | .sb => some .w8
  | .sh => some .w16
  | .sw => some .w32
  | .sd => some .w64
  | .add | .sub | .sll | .slt | .sltu | .xor | .srl | .sra | .or | .and => none
  | .addi | .slli | .slti | .sltiu | .xori | .srli | .srai | .ori | .andi => none

/-- Phase 5 over the blocks: drive the register file's write port, or the load_store_unit's store. -/
def executePhase (f : Fields) (op : Op) (s : State) : State :=
  let rd1 := s.x.read f.rs1
  let rd2 := s.x.read f.rs2
  match storeWidth op with
  | none => { s with x := registerFile s.x false true f.rd (aluDispatch op rd1 rd2 f.immI f.shamt) }
  | some w =>
    match lsuStore s.cfg s.mem (rd1 + f.immS) w rd2 with
    | .ok m => { s with mem := m }
    | .error r => { s with run := .halted, haltReason := r }

/-- `step_controller`: one step, driving the phases of R139 over the other six blocks. -/
def stepController (s : State) : State :=
  match s.run with
  | .halted => s
  | .running =>
    if s.pc = 0#64 then { s with run := .halted, haltReason := .sentinelPc }
    else
      match fetchUnit s.cfg s.mem s.pc with
      | .error r => { s with run := .halted, haltReason := r }
      | .ok inst =>
        let s2 : State :=
          { s with pc := programCounter s.pc true (s.pc + 4#64), x := registerFile s.x true false 0#5 0#64 }
        match instructionDecoder inst with
        | (f, none) =>
          { s2 with run := .halted, haltReason := .unrecognizedInstruction f.opcode f.funct3 f.funct7 }
        | (f, some op) => executePhase f op s2

end Sys2Proof.Machine.Blocks
end

