-- ==== Sys2Proof/Machine/Boot.lean ====
section
/-! DEFINITION. Reset and the image load for every configuration and every launch (10_state.md R50-R53,
70_reset_and_hazards.md R250-R253). The launch parameters of R11 are arguments, so a statement over them fixes none. -/

namespace Sys2Proof.Machine

/-- What memory offset `k` holds at reset: the image's byte, and past the image's end the OPEN `mem_fill` (R53). -/
def initialByte (image : List Byte) (memFill : Nat → Byte) (k : Nat) : Byte :=
  match image[k]? with
  | some b => b
  | none => memFill k

/-- The memory of `size` bytes from address `base` that holds `f k` at offset `k` (R44). -/
def fillMemory (base : Nat) (f : Nat → Byte) : Nat → Memory
  | 0 => []
  | size + 1 => (fillMemory base f size).setByte (base + size) (f size)

/-- The state of the R250 table. -/
def initialState (c : Config) (image : List Byte) (regInit : RegFile) (memFill : Nat → Byte) : State where
  x := regInit.write 0#5 0#64
  pc := c.memBase
  mem := fillMemory c.memBase.toNat (initialByte image memFill) c.memSize
  run := .running
  haltReason := .none
  cfg := c

/-- Create a core and load its image, `none` for a file that cannot be opened or read. The core starts in the R250
state, or does not start: `ImageLoadFailure` (R252, R253), or a configuration that R10 excludes. -/
def boot (c : Config) (image : Option (List Byte)) (regInit : RegFile) (memFill : Nat → Byte) :
    Host.Outcome State Fault Refusal :=
  if c.valid then
    match image with
    | none => .refused .imageLoadFailure
    | some bytes =>
      if bytes.length ≤ c.memSize then .next (initialState c bytes regInit memFill)
      else .refused .imageLoadFailure
  else .fault .invalidConfiguration

end Sys2Proof.Machine
end

