-- ==== Sys2Proof/Machine/Causes.lean ====
section
/-! DEFINITION. The halt causes and their codes (60_exceptions.md R221). -/

namespace Sys2Proof.Machine

/-- The causes of R221. -/
inductive HaltCause where
  | sentinelPc | unrecognizedInstruction | outOfBounds | imageLoadFailure
  deriving DecidableEq, Repr

/-- The numeric code of a cause (R221; the numbers are the spec's own, 92_eei_decisions.md D10). -/
def HaltCause.code : HaltCause → Nat
  | .sentinelPc => 0
  | .unrecognizedInstruction => 1
  | .outOfBounds => 2
  | .imageLoadFailure => 3

/-- Whether a cause is an error: `SentinelPc` is a normal stop (R221). -/
def HaltCause.isError : HaltCause → Bool
  | .sentinelPc => false
  | .unrecognizedInstruction => true
  | .outOfBounds => true
  | .imageLoadFailure => true

/-- The cause a halt reason records; `ImageLoadFailure` is never in core state (R221). -/
def HaltReason.cause : HaltReason → Option HaltCause
  | .none => .none
  | .sentinelPc => some .sentinelPc
  | .unrecognizedInstruction _ _ _ => some .unrecognizedInstruction
  | .outOfBounds _ _ _ => some .outOfBounds

end Sys2Proof.Machine
end

