-- ==== Sys2Proof/Machine/HostLoop.lean ====
section
/-! DEFINITION. What the host does around the core, as far as the spec gives it (70_reset_and_hazards.md R255-R258,
10_state.md R35): the command surface, the run loop, the dump's values and labels, the report. -/

namespace Sys2Proof.Machine

/-- The ABI names of the 32 slots, in slot order (R35). -/
def abiNames : List String :=
  ["zero", "ra", "sp", "gp", "tp", "t0", "t1", "t2"] ++ ["s0", "s1", "a0", "a1", "a2", "a3", "a4", "a5"] ++
  ["a6", "a7", "s2", "s3", "s4", "s5", "s6", "s7"] ++ ["s8", "s9", "s10", "s11", "t3", "t4", "t5", "t6"]

/-- The values of the diagnostic dump: all 32 slots with their labels, slot 0 as it stands (R257, R34). -/
def State.dump (s : State) : List (String × Word) := abiNames.zip s.x.toList

/-- The dump's text: the OPEN `dump_format` of its values and of `pc`, which it may print or not (R257,
92_eei_decisions.md D18; log 11). -/
def State.dumpText (s : State) : String := Config.dumpFormat s.pc s.dump

/-- The host's run loop (R256): step while Running, dump after each step that completes, no dump after one that halts
(R257). The number is how many steps the host lets pass before it stops the core between two of them, the one move it
has (40_fetch_dispatch.md R141). -/
def hostRun : Nat → State → List (List (String × Word)) × State
  | 0, s => ([], s)
  | k + 1, s =>
    match s.run with
    | .halted => ([], s)
    | .running =>
      match step s with
      | .next t =>
        match t.run with
        | .running => (t.dump :: (hostRun k t).1, (hostRun k t).2)
        | .halted => ([], t)
      | .fault _ => ([], s)
      | .refused _ => ([], s)

/-- What the host reports of an ended run: the recorded value of an error. A run it stopped itself, still Running, has
none, and the sentinel halt is a normal stop (R258, R221). -/
def State.report (s : State) : Option HaltReason :=
  match s.run, s.haltReason with
  | .halted, .unrecognizedInstruction o f3 f7 => some (.unrecognizedInstruction o f3 f7)
  | .halted, .outOfBounds k a w => some (.outOfBounds k a w)
  | _, _ => none

/-- OPEN `exit_status` (92_eei_decisions.md D19): the process exit status at the end of a run. A free value. -/
opaque exitStatus : HaltReason → Int

/-- What the command surface does with its arguments (R255). -/
inductive CommandResult where
  /-- Exactly one argument: the path of the image file. -/
  | start (path : String)
  /-- Any other count: the usage message, and an exit with this status. -/
  | usage (status : Int)
  deriving DecidableEq, Repr

/-- The exit status of a wrong argument count: some number other than zero (R255). -/
def usageStatus : Int := if Config.usageExitStatus = 0 then 1 else Config.usageExitStatus

/-- The command surface: a single required positional argument (R255). -/
def commandLine : List String → CommandResult
  | [path] => .start path
  | _ => .usage usageStatus

end Sys2Proof.Machine
end

