-- ==== Sys2Proof/Safety.lean ====
section
/-! DEFINITION. The terms the claims use: which addresses exist, what a well-kept state is, when a run has failed. -/

namespace Sys2Proof.Machine

/-- The address (as an unbounded integer) lies in `[MEM_BASE, MEM_BASE + MEM_SIZE)` (20_memory.md R60, R73). -/
abbrev mapped (c : Config) (a : Nat) : Prop :=
  c.memBase.toNat ≤ a ∧ a < c.memBase.toNat + c.memSize

/-- The invariant of the core: what holds at reset and every step keeps. -/
structure State.Inv (s : State) : Prop where
  /-- The configuration satisfies R10. -/
  cfgValid : s.cfg.valid
  /-- The memory is in its canonical form. -/
  memCanonical : s.mem.wf
  /-- Memory holds no byte outside the mapped range (R44, R60). -/
  memMapped : ∀ c ∈ s.mem, mapped s.cfg c.1
  /-- `halt_reason` is `None` exactly while Running (R43). -/
  haltRecorded : s.run = .running ↔ s.haltReason = .none
  /-- `pc ≡ MEM_BASE (mod 4)` (R40). -/
  pcAligned : s.pc.toNat % 4 = s.cfg.memBase.toNat % 4
  /-- `pc` never runs further than the end of memory. -/
  pcInReach : offset s.cfg s.pc ≤ s.cfg.memSize

/-- The core has halted on an error: an unrecognized word or an access out of bounds, not the sentinel (R221). -/
def State.failed (s : State) : Bool :=
  match s.haltReason.cause with
  | some c => c.isError
  | none => false

/-- A run of `k` steps is safe: it leads to a state that has not failed. -/
def SafeRun (k : Nat) (s : State) : Prop :=
  ∃ t, Host.Core.run Sys2Proof.core k s = .next t ∧ t.failed = false

end Sys2Proof.Machine
end

