-- ==== Sys2Proof/Certificates/Slice0/Obligations.lean ====
section
/-! DEFINITION. The statements for the provers. Each docstring names the rule of spec/ it formalises. -/

namespace Sys2Proof.Claims

open Sys2Proof Sys2Proof.Machine

/-- The encoding of an instruction (its match and mask): exactly the words `w` with `w & mask = pattern` decode to it,
and they decode to the operands that `mk` reads from the word. -/
def EncodedBy (mask pattern : InstWord) (mk : InstWord → Instr) : Prop :=
  ∀ w : InstWord, w &&& mask = pattern ↔ decode w = .ok (mk w)

/-- What a register-writing instruction leaves alone: every other slot, the pc, every byte of memory, the run state,
the halt reason and the configuration. -/
def OnlySlotChanged (rd : RegIdx) (s t : State) : Prop :=
  (∀ r, r ≠ rd → t.reg r = s.reg r) ∧ t.pc = s.pc ∧ (∀ a, t.mem.byteAt a = s.mem.byteAt a) ∧
  t.run = s.run ∧ t.haltReason = s.haltReason ∧ t.cfg = s.cfg

/-- The instruction completes: it answers a next state whose slot `rd` (slot 0 like any other) holds a value with this
property, and nothing else has changed. -/
def CompletesWriting (i : Instr) (rd : RegIdx) (s : State) (value : Word → Prop) : Prop :=
  ∃ t, exec i s = .next t ∧ value (t.reg rd) ∧ OnlySlotChanged rd s t

/-- Bit `k` of the two's complement of an integer. -/
def intBit (x : Int) (k : Nat) : Bool := decide (x / 2 ^ k % 2 = 1)

/-- A word of this opcode and funct3 whose funct7 is neither 0x00 nor 0x20 is unrecognized, with its own triple. -/
def OtherFunct7Unrecognized (opcode : BitVec 7) (funct3 : BitVec 3) : Prop :=
  ∀ w : InstWord, opcodeOf w = opcode → funct3Of w = funct3 → funct7Of w ≠ 0x00#7 → funct7Of w ≠ 0x20#7 →
    decode w = .error (.unrecognized opcode funct3 (funct7Of w))

/-- What a store leaves alone: every slot, the pc and the configuration. -/
def NoRegisterChanged (s t : State) : Prop :=
  (∀ r, t.reg r = s.reg r) ∧ t.pc = s.pc ∧ t.cfg = s.cfg

/-- What a store does. Its address is `(x[rs1] + imm) mod 2^64`. If all `n` bytes are in bounds it completes: byte `k`
of `x[rs2]` is at `addr + k`, and every other byte of memory is as before. If not, it halts the core with
`OutOfBounds(store, addr, 8n)` and no byte of memory has changed. -/
def StoresBytes (i : Instr) (rs1 rs2 : RegIdx) (imm : Int) (w : Width) (s : State) : Prop :=
  ((effectiveAddress s rs1 imm).toNat : Int) = ((s.reg rs1).toNat + imm) % 2 ^ 64 ∧
  (offset s.cfg (effectiveAddress s rs1 imm) + w.bytes ≤ s.cfg.memSize →
    ∃ t, exec i s = .next t ∧
      (∀ k < w.bytes, t.mem.byteAt (effectiveAddress s rs1 imm + BitVec.ofNat 64 k).toNat =
        (s.reg rs2).extractLsb' (8 * k) 8) ∧
      (∀ a, (∀ k < w.bytes, a ≠ (effectiveAddress s rs1 imm + BitVec.ofNat 64 k).toNat) →
        t.mem.byteAt a = s.mem.byteAt a) ∧
      NoRegisterChanged s t ∧ t.run = s.run ∧ t.haltReason = s.haltReason) ∧
  (¬ offset s.cfg (effectiveAddress s rs1 imm) + w.bytes ≤ s.cfg.memSize →
    ∃ t, exec i s = .next t ∧ t.run = .halted ∧
      t.haltReason = .outOfBounds .store (effectiveAddress s rs1 imm) w ∧
      (∀ a, t.mem.byteAt a = s.mem.byteAt a) ∧ NoRegisterChanged s t)

/-- The core is Running, past the sentinel check, and its fetch gives `w`. -/
def Fetches (s : State) (w : InstWord) : Prop :=
  s.run = .running ∧ s.pc ≠ 0#64 ∧ s.fetch = .ok w

/-- The state after `k` steps. -/
def stateAfter (k : Nat) (s : State) : Option State :=
  match Host.Core.run Sys2Proof.core k s with
  | .next t => some t
  | .fault _ => none
  | .refused _ => none

/-- How many of the first `k` steps complete: the core is Running after them. -/
def completedSteps (k : Nat) (s : State) : Nat :=
  ((List.range k).filter fun j => (stateAfter (j + 1) s).any fun t => decide (t.run = .running)).length

end Sys2Proof.Claims

open Sys2Proof Sys2Proof.Machine Sys2Proof.Claims

/-! ### The R-type instructions -/

/-- R161. -/
def Obligations.AddWritesSumModulo2To64 : Prop :=
  EncodedBy 0xFE00707F#32 0x00000033#32 (fun w => .add (rdOf w) (rs1Of w) (rs2Of w)) ∧
  OtherFunct7Unrecognized 0x33#7 0#3 ∧
  ∀ rd rs1 rs2 s, CompletesWriting (.add rd rs1 rs2) rd s fun v =>
    v.toNat = ((s.reg rs1).toNat + (s.reg rs2).toNat) % 2 ^ 64

/-- R162. -/
def Obligations.SubWritesDifferenceModulo2To64 : Prop :=
  EncodedBy 0xFE00707F#32 0x40000033#32 (fun w => .sub (rdOf w) (rs1Of w) (rs2Of w)) ∧
  ∀ rd rs1 rs2 s, CompletesWriting (.sub rd rs1 rs2) rd s fun v =>
    (v.toNat : Int) = ((s.reg rs1).toNat - (s.reg rs2).toNat : Int) % 2 ^ 64

/-- R163. -/
def Obligations.SllShiftsLeftByLowSixBits : Prop :=
  EncodedBy 0x0000707F#32 0x00001033#32 (fun w => .sll (rdOf w) (rs1Of w) (rs2Of w) (funct7Of w)) ∧
  ∀ rd rs1 rs2 f7 s, CompletesWriting (.sll rd rs1 rs2 f7) rd s fun v =>
    v.toNat = (s.reg rs1).toNat * 2 ^ ((s.reg rs2).toNat % 64) % 2 ^ 64

/-- R164. -/
def Obligations.SltComparesSigned : Prop :=
  EncodedBy 0x0000707F#32 0x00002033#32 (fun w => .slt (rdOf w) (rs1Of w) (rs2Of w) (funct7Of w)) ∧
  ∀ rd rs1 rs2 f7 s, CompletesWriting (.slt rd rs1 rs2 f7) rd s fun v =>
    v = if (s.reg rs1).toInt < (s.reg rs2).toInt then 1#64 else 0#64

/-- R165. -/
def Obligations.SltuComparesUnsigned : Prop :=
  EncodedBy 0x0000707F#32 0x00003033#32 (fun w => .sltu (rdOf w) (rs1Of w) (rs2Of w) (funct7Of w)) ∧
  ∀ rd rs1 rs2 f7 s, CompletesWriting (.sltu rd rs1 rs2 f7) rd s fun v =>
    v = if (s.reg rs1).toNat < (s.reg rs2).toNat then 1#64 else 0#64

/-- R166. -/
def Obligations.XorWritesBitwiseExclusiveOr : Prop :=
  EncodedBy 0x0000707F#32 0x00004033#32 (fun w => .xor (rdOf w) (rs1Of w) (rs2Of w) (funct7Of w)) ∧
  ∀ rd rs1 rs2 f7 s, CompletesWriting (.xor rd rs1 rs2 f7) rd s fun v =>
    ∀ k < 64, v.getLsbD k = ((s.reg rs1).getLsbD k).xor ((s.reg rs2).getLsbD k)

/-- R167. -/
def Obligations.SrlShiftsRightFillingZeros : Prop :=
  EncodedBy 0xFE00707F#32 0x00005033#32 (fun w => .srl (rdOf w) (rs1Of w) (rs2Of w)) ∧
  OtherFunct7Unrecognized 0x33#7 5#3 ∧
  ∀ rd rs1 rs2 s, CompletesWriting (.srl rd rs1 rs2) rd s fun v =>
    v.toNat = (s.reg rs1).toNat / 2 ^ ((s.reg rs2).toNat % 64)

/-- R168: the division of the signed value rounds toward minus infinity. -/
def Obligations.SraShiftsRightFillingSign : Prop :=
  EncodedBy 0xFE00707F#32 0x40005033#32 (fun w => .sra (rdOf w) (rs1Of w) (rs2Of w)) ∧
  ∀ rd rs1 rs2 s, CompletesWriting (.sra rd rs1 rs2) rd s fun v =>
    v.toInt = (s.reg rs1).toInt / 2 ^ ((s.reg rs2).toNat % 64)

/-- R169. -/
def Obligations.OrWritesBitwiseOr : Prop :=
  EncodedBy 0x0000707F#32 0x00006033#32 (fun w => .or (rdOf w) (rs1Of w) (rs2Of w) (funct7Of w)) ∧
  ∀ rd rs1 rs2 f7 s, CompletesWriting (.or rd rs1 rs2 f7) rd s fun v =>
    ∀ k < 64, v.getLsbD k = ((s.reg rs1).getLsbD k || (s.reg rs2).getLsbD k)

/-- R170. -/
def Obligations.AndWritesBitwiseAnd : Prop :=
  EncodedBy 0x0000707F#32 0x00007033#32 (fun w => .and (rdOf w) (rs1Of w) (rs2Of w) (funct7Of w)) ∧
  ∀ rd rs1 rs2 f7 s, CompletesWriting (.and rd rs1 rs2 f7) rd s fun v =>
    ∀ k < 64, v.getLsbD k = ((s.reg rs1).getLsbD k && (s.reg rs2).getLsbD k)

/-! ### The I-type instructions -/

/-- R181. -/
def Obligations.AddiWritesSumWithImmediate : Prop :=
  EncodedBy 0x0000707F#32 0x00000013#32 (fun w => .addi (rdOf w) (rs1Of w) (immIOf w).toInt) ∧
  ∀ rd rs1 imm s, CompletesWriting (.addi rd rs1 imm) rd s fun v =>
    (v.toNat : Int) = ((s.reg rs1).toNat + imm) % 2 ^ 64

/-- R182: `shamt` is `w[24:20]`, and `w[31:25]` does not matter. -/
def Obligations.SlliShiftsLeftByShamt : Prop :=
  EncodedBy 0x0000707F#32 0x00001013#32 (fun w => .slli (rdOf w) (rs1Of w) (w.extractLsb' 20 5) (funct7Of w)) ∧
  ∀ rd rs1 shamt f7 s, CompletesWriting (.slli rd rs1 shamt f7) rd s fun v =>
    v.toNat = (s.reg rs1).toNat * 2 ^ shamt.toNat % 2 ^ 64

/-- R183. -/
def Obligations.SltiComparesSignedWithImmediate : Prop :=
  EncodedBy 0x0000707F#32 0x00002013#32 (fun w => .slti (rdOf w) (rs1Of w) (immIOf w).toInt) ∧
  ∀ rd rs1 imm s, (Instr.slti rd rs1 imm).wellFormed = true → CompletesWriting (.slti rd rs1 imm) rd s fun v =>
    v = if (s.reg rs1).toInt < imm then 1#64 else 0#64

/-- R184: the immediate, sign-extended to 64 bits, is compared as unsigned. -/
def Obligations.SltiuComparesUnsignedWithImmediate : Prop :=
  EncodedBy 0x0000707F#32 0x00003013#32 (fun w => .sltiu (rdOf w) (rs1Of w) (immIOf w).toInt) ∧
  ∀ rd rs1 imm s, CompletesWriting (.sltiu rd rs1 imm) rd s fun v =>
    v = if ((s.reg rs1).toNat : Int) < imm % 2 ^ 64 then 1#64 else 0#64

/-- R185. -/
def Obligations.XoriWritesExclusiveOrWithImmediate : Prop :=
  EncodedBy 0x0000707F#32 0x00004013#32 (fun w => .xori (rdOf w) (rs1Of w) (immIOf w).toInt) ∧
  ∀ rd rs1 imm s, CompletesWriting (.xori rd rs1 imm) rd s fun v =>
    ∀ k < 64, v.getLsbD k = ((s.reg rs1).getLsbD k).xor (intBit imm k)

/-- R186. -/
def Obligations.SrliShiftsRightFillingZerosByShamt : Prop :=
  EncodedBy 0xFE00707F#32 0x00005013#32 (fun w => .srli (rdOf w) (rs1Of w) (w.extractLsb' 20 5)) ∧
  OtherFunct7Unrecognized 0x13#7 5#3 ∧
  ∀ rd rs1 shamt s, CompletesWriting (.srli rd rs1 shamt) rd s fun v =>
    v.toNat = (s.reg rs1).toNat / 2 ^ shamt.toNat

/-- R187: the division of the signed value rounds toward minus infinity. -/
def Obligations.SraiShiftsRightFillingSignByShamt : Prop :=
  EncodedBy 0xFE00707F#32 0x40005013#32 (fun w => .srai (rdOf w) (rs1Of w) (w.extractLsb' 20 5)) ∧
  OtherFunct7Unrecognized 0x13#7 5#3 ∧
  ∀ rd rs1 shamt s, CompletesWriting (.srai rd rs1 shamt) rd s fun v =>
    v.toInt = (s.reg rs1).toInt / 2 ^ shamt.toNat

/-- R188. -/
def Obligations.OriWritesOrWithImmediate : Prop :=
  EncodedBy 0x0000707F#32 0x00006013#32 (fun w => .ori (rdOf w) (rs1Of w) (immIOf w).toInt) ∧
  ∀ rd rs1 imm s, CompletesWriting (.ori rd rs1 imm) rd s fun v =>
    ∀ k < 64, v.getLsbD k = ((s.reg rs1).getLsbD k || intBit imm k)

/-- R189. -/
def Obligations.AndiWritesAndWithImmediate : Prop :=
  EncodedBy 0x0000707F#32 0x00007013#32 (fun w => .andi (rdOf w) (rs1Of w) (immIOf w).toInt) ∧
  ∀ rd rs1 imm s, CompletesWriting (.andi rd rs1 imm) rd s fun v =>
    ∀ k < 64, v.getLsbD k = ((s.reg rs1).getLsbD k && intBit imm k)

/-! ### The stores -/

/-- R201. -/
def Obligations.SbStoresOneByte : Prop :=
  EncodedBy 0x0000707F#32 0x00000023#32 (fun w => .sb (rs1Of w) (rs2Of w) (immSOf w).toInt) ∧
  ∀ rs1 rs2 imm s, StoresBytes (.sb rs1 rs2 imm) rs1 rs2 imm .w8 s

/-- R202. -/
def Obligations.ShStoresTwoBytes : Prop :=
  EncodedBy 0x0000707F#32 0x00001023#32 (fun w => .sh (rs1Of w) (rs2Of w) (immSOf w).toInt) ∧
  ∀ rs1 rs2 imm s, StoresBytes (.sh rs1 rs2 imm) rs1 rs2 imm .w16 s

/-- R203. -/
def Obligations.SwStoresFourBytes : Prop :=
  EncodedBy 0x0000707F#32 0x00002023#32 (fun w => .sw (rs1Of w) (rs2Of w) (immSOf w).toInt) ∧
  ∀ rs1 rs2 imm s, StoresBytes (.sw rs1 rs2 imm) rs1 rs2 imm .w32 s

/-- R204, with its round trip: after the SD of `V` at `A`, `MemRead(A, 8) = V`. -/
def Obligations.SdStoresEightBytes : Prop :=
  EncodedBy 0x0000707F#32 0x00003023#32 (fun w => .sd (rs1Of w) (rs2Of w) (immSOf w).toInt) ∧
  (∀ rs1 rs2 imm s, StoresBytes (.sd rs1 rs2 imm) rs1 rs2 imm .w64 s) ∧
  ∀ rs1 rs2 imm s t kind, offset s.cfg (effectiveAddress s rs1 imm) + 8 ≤ s.cfg.memSize →
    exec (.sd rs1 rs2 imm) s = .next t →
    memRead t.cfg t.mem kind (effectiveAddress s rs1 imm) .w64 = .ok (s.reg rs2)

/-! ### Encoding and dispatch -/

/-- 30_encoding.md sections 4 and 5: no bit of an encoding is dropped. -/
def Obligations.DecodeOfEncodeIsTheInstruction : Prop :=
  ∀ i : Instr, i.wellFormed = true → decode (encode i) = .ok i ∧ decodeBytes (encodeBytes i) = .ok (i, [])

/-- The other direction: a word that decodes has one reading, a well-formed instruction whose encoding is the word. -/
def Obligations.EncodeOfDecodeIsTheWord : Prop :=
  ∀ (w : InstWord) (i : Instr), decode w = .ok i → i.wellFormed = true ∧ encode i = w

/-- R109: the arms of the dispatch function, and that no other triple has an operation. -/
def Obligations.DispatchIsTheTableOfR109 : Prop :=
  (dispatch 0x33 0 0x00 = some .add ∧ dispatch 0x33 0 0x20 = some .sub ∧
   dispatch 0x33 5 0x00 = some .srl ∧ dispatch 0x33 5 0x20 = some .sra ∧
   dispatch 0x13 5 0x00 = some .srli ∧ dispatch 0x13 5 0x20 = some .srai) ∧
  (∀ f7, dispatch 0x33 1 f7 = some .sll ∧ dispatch 0x33 2 f7 = some .slt ∧ dispatch 0x33 3 f7 = some .sltu ∧
    dispatch 0x33 4 f7 = some .xor ∧ dispatch 0x33 6 f7 = some .or ∧ dispatch 0x33 7 f7 = some .and ∧
    dispatch 0x13 0 f7 = some .addi ∧ dispatch 0x13 1 f7 = some .slli ∧ dispatch 0x13 2 f7 = some .slti ∧
    dispatch 0x13 3 f7 = some .sltiu ∧ dispatch 0x13 4 f7 = some .xori ∧ dispatch 0x13 6 f7 = some .ori ∧
    dispatch 0x13 7 f7 = some .andi ∧ dispatch 0x23 0 f7 = some .sb ∧ dispatch 0x23 1 f7 = some .sh ∧
    dispatch 0x23 2 f7 = some .sw ∧ dispatch 0x23 3 f7 = some .sd) ∧
  (∀ op f3 f7, dispatch op f3 f7 = none ↔
    ¬ ((op = 0x33 ∧ (f3 = 0 ∨ f3 = 5 → f7 = 0x00 ∨ f7 = 0x20)) ∨
       (op = 0x13 ∧ (f3 = 5 → f7 = 0x00 ∨ f7 = 0x20)) ∨
       (op = 0x23 ∧ f3.toNat < 4))) ∧
  (∀ w, decode w = match dispatch (opcodeOf w) (funct3Of w) (funct7Of w) with
    | some op => .ok (assemble (fieldsOf w) op)
    | none => .error (.unrecognized (opcodeOf w) (funct3Of w) (funct7Of w)))

/-- R91, R92: each field is the bits of the word that R91 names. -/
def Obligations.FieldsAreTheirBits : Prop :=
  ∀ (w : InstWord) (k : Nat),
    (opcodeOf w).getLsbD k = (decide (k < 7) && w.getLsbD k) ∧
    (rdOf w).getLsbD k = (decide (k < 5) && w.getLsbD (7 + k)) ∧
    (funct3Of w).getLsbD k = (decide (k < 3) && w.getLsbD (12 + k)) ∧
    (rs1Of w).getLsbD k = (decide (k < 5) && w.getLsbD (15 + k)) ∧
    (rs2Of w).getLsbD k = (decide (k < 5) && w.getLsbD (20 + k)) ∧
    (funct7Of w).getLsbD k = (decide (k < 7) && w.getLsbD (25 + k)) ∧
    (rdOf w).toNat ≤ 31 ∧ (rs1Of w).toNat ≤ 31 ∧ (rs2Of w).toNat ≤ 31

/-- R93, R94, R95: imm_I, shamt and imm_S bit by bit, and their ranges. -/
def Obligations.ImmediatesOfUsedFormats : Prop :=
  ∀ w : InstWord,
    (∀ k < 64, (immIOf w).getLsbD k = if k < 12 then w.getLsbD (20 + k) else w.getLsbD 31) ∧
    (-2048 ≤ (immIOf w).toInt ∧ (immIOf w).toInt ≤ 2047) ∧
    ((shamtOf w).setWidth 64 = immIOf w &&& 0x1f#64 ∧ ∀ k < 5, (shamtOf w).getLsbD k = w.getLsbD (20 + k)) ∧
    (∀ k < 64, (immSOf w).getLsbD k =
      if k < 5 then w.getLsbD (7 + k) else if k < 12 then w.getLsbD (20 + k) else w.getLsbD 31) ∧
    (-2048 ≤ (immSOf w).toInt ∧ (immSOf w).toInt ≤ 2047)

/-- R96, R97, R98: imm_B, imm_U and imm_J bit by bit, and the ranges of imm_B and imm_J; and that no instruction uses
them: whatever they are, the same instruction is assembled. -/
def Obligations.ImmediatesOfUnusedFormats : Prop :=
  ∀ w : InstWord,
    (∀ k < 64, (immBOf w).getLsbD k =
      if k = 0 then false else if k < 5 then w.getLsbD (7 + k) else if k < 11 then w.getLsbD (20 + k)
      else if k = 11 then w.getLsbD 7 else w.getLsbD 31) ∧
    (∀ k < 64, (immUOf w).getLsbD k = if k < 12 then false else if k < 32 then w.getLsbD k else w.getLsbD 31) ∧
    (∀ k < 64, (immJOf w).getLsbD k =
      if k = 0 then false else if k < 11 then w.getLsbD (20 + k) else if k = 11 then w.getLsbD 20
      else if k < 20 then w.getLsbD k else w.getLsbD 31) ∧
    ((immBOf w).toInt % 2 = 0 ∧ -4096 ≤ (immBOf w).toInt ∧ (immBOf w).toInt ≤ 4094) ∧
    ((immJOf w).toInt % 2 = 0 ∧ -1048576 ≤ (immJOf w).toInt ∧ (immJOf w).toInt ≤ 1048574) ∧
    ∀ (op : Op) (b u j : Word), assemble { fieldsOf w with immB := b, immU := u, immJ := j } op = assemble (fieldsOf w) op

/-- One word of each class, written out from R100: `ADD x5, x1, x2`, `ADDI x1, x0, -1`, `SRAI x3, x1, 5`,
`SW x2, -1(x1)`, and the all-zero and all-ones words. -/
def Obligations.WrittenOutWordsDecode : Prop :=
  decode 0x002082B3#32 = .ok (.add 5 1 2) ∧
  decode 0xFFF00093#32 = .ok (.addi 1 0 (-1)) ∧
  decode 0x4050D193#32 = .ok (.srai 3 1 5) ∧
  decode 0xFE20AFA3#32 = .ok (.sw 1 2 (-1)) ∧
  decode 0x00000000#32 = .error (.unrecognized 0x00 0 0x00) ∧
  decode 0xFFFFFFFF#32 = .error (.unrecognized 0x7F 7 0x7F)

/-- The words of R111's table, with the operands it gives; R111 is marked "derived: from rule R109". -/
def Obligations.StandardEncodingsExecuteAsBaseOperations : Prop :=
  decode 0x023110B3#32 = .ok (.sll 1 2 3 0x01) ∧
  decode 0x023120B3#32 = .ok (.slt 1 2 3 0x01) ∧
  decode 0x023130B3#32 = .ok (.sltu 1 2 3 0x01) ∧
  decode 0x023140B3#32 = .ok (.xor 1 2 3 0x01) ∧
  decode 0x023160B3#32 = .ok (.or 1 2 3 0x01) ∧
  decode 0x023170B3#32 = .ok (.and 1 2 3 0x01) ∧
  decode 0x02009193#32 = .ok (.slli 3 1 0 0x01) ∧
  decode 0xFE20C1B3#32 = .ok (.xor 3 1 2 0x7F)

/-! ### The step -/

/-- R140 (the spec's own choice D16, log 7): a step, and so any number of steps, leaves a halted core as it is. -/
def Obligations.HaltedCoreIsFrozen : Prop :=
  ∀ s : State, s.run = .halted →
    step s = .next s ∧ ∀ k, Host.Core.run Sys2Proof.core k s = .next s

/-- R131; that the check comes first in the step is the spec's own choice (D7, log 6). -/
def Obligations.ZeroPcHaltsWithoutFetching : Prop :=
  ∀ s : State, s.run = .running → s.pc = 0#64 →
    step s = .next { s with run := .halted, haltReason := .sentinelPc }

/-- R132, R223: what the fetch gives, and the halt of a fetch out of bounds; that it leaves `pc` and slot 0, and what it
records, are the spec's own choices (D8, D9, log 7). -/
def Obligations.FetchReadsFourBytesOrHalts : Prop :=
  ∀ s : State, s.run = .running → s.pc ≠ 0#64 →
    (offset s.cfg s.pc + 4 ≤ s.cfg.memSize →
      ∃ w, s.fetch = .ok w ∧
        ∀ k < 32, w.getLsbD k = (s.mem.byteAt (s.pc + BitVec.ofNat 64 (k / 8)).toNat).getLsbD (k % 8)) ∧
    (¬ offset s.cfg s.pc + 4 ≤ s.cfg.memSize →
      step s = .next { s with run := .halted, haltReason := .outOfBounds .fetch s.pc .w32 })

/-- R135, R222: the state an unrecognized word leaves. -/
def Obligations.UnrecognizedWordHaltsWithItsTriple : Prop :=
  ∀ (s : State) (w : InstWord), Fetches s w → dispatch (opcodeOf w) (funct3Of w) (funct7Of w) = none →
    ∃ t, step s = .next t ∧ t.run = .halted ∧
      t.haltReason = .unrecognizedInstruction (opcodeOf w) (funct3Of w) (funct7Of w) ∧
      t.pc = s.pc + 4#64 ∧ t.reg 0#5 = 0#64 ∧ (∀ r, r ≠ 0#5 → t.reg r = s.reg r) ∧
      (∀ a, t.mem.byteAt a = s.mem.byteAt a) ∧ t.cfg = s.cfg

/-- R133, R134, R136, R139: where the four bytes at `pc` decode to an instruction, the step is that instruction's meaning
on the state with the pc advanced and slot 0 cleared. -/
def Obligations.StepRunsTheDecodedInstruction : Prop :=
  ∀ (s : State) (i : Instr), s.run = .running → s.pc ≠ 0#64 → offset s.cfg s.pc + 4 ≤ s.cfg.memSize →
    decodeBytes [s.mem.byteAt s.pc.toNat, s.mem.byteAt (s.pc + 1#64).toNat, s.mem.byteAt (s.pc + 2#64).toNat,
      s.mem.byteAt (s.pc + 3#64).toNat] = .ok (i, []) →
    step s = exec i s.afterFetch ∧
    s.afterFetch.pc = s.pc + 4#64 ∧ s.afterFetch.reg 0#5 = 0#64 ∧ (∀ r, r ≠ 0#5 → s.afterFetch.reg r = s.reg r) ∧
    s.afterFetch.mem = s.mem ∧ s.afterFetch.run = s.run ∧ s.afterFetch.haltReason = s.haltReason ∧
    s.afterFetch.cfg = s.cfg

/-- From R139 and R220: every step, and every instruction, answers a next state. -/
def Obligations.EveryStepAnswersANextState : Prop :=
  (∀ s : State, ∃ t, step s = .next t) ∧ ∀ (i : Instr) (s : State), ∃ t, exec i s = .next t

/-- The table of R227, which the spec marks "derived: from 40_fetch_dispatch.md rules R131 to R136" and R200: the state
each cause leaves. -/
def Obligations.HaltLeavesTheStateOfItsCause : Prop :=
  ∀ s t : State, s.run = .running → step s = .next t → t.run = .halted →
    (∀ r, r ≠ 0#5 → t.reg r = s.reg r) ∧ (∀ a, t.mem.byteAt a = s.mem.byteAt a) ∧ t.cfg = s.cfg ∧
    match t.haltReason with
    | .none => False
    | .sentinelPc => s.pc = 0#64 ∧ t.pc = s.pc ∧ t.reg 0#5 = s.reg 0#5
    | .outOfBounds .fetch a w => a = s.pc ∧ w = .w32 ∧ t.pc = s.pc ∧ t.reg 0#5 = s.reg 0#5
    | .unrecognizedInstruction _ _ _ => t.pc = s.pc + 4#64 ∧ t.reg 0#5 = 0#64
    | .outOfBounds .store _ _ => t.pc = s.pc + 4#64 ∧ t.reg 0#5 = 0#64

/-- R226, which the spec marks "derived: from 40_fetch_dispatch.md rules R131 to R136": the cause recorded is the first
that the phase order reaches; only a store reaches the last. -/
def Obligations.HaltCauseIsTheFirstReached : Prop :=
  ∀ s t : State, s.run = .running → s.haltReason = .none → step s = .next t →
    (t.haltReason = .sentinelPc ↔ s.pc = 0#64) ∧
    ((∃ a w, t.haltReason = .outOfBounds .fetch a w) ↔ s.pc ≠ 0#64 ∧ ¬ offset s.cfg s.pc + 4 ≤ s.cfg.memSize) ∧
    ((∃ o f3 f7, t.haltReason = .unrecognizedInstruction o f3 f7) ↔
      ∃ w, Fetches s w ∧ dispatch (opcodeOf w) (funct3Of w) (funct7Of w) = none) ∧
    ((∃ a w, t.haltReason = .outOfBounds .store a w) →
      ∃ w i, Fetches s w ∧ decode w = .ok i ∧ i.op.opClass = .sType)

/-- From R36, R45 and R75: a step changes no slot other than 0 that its instruction does not name as destination, never
the configuration, and no byte of memory but those of a store in bounds: with the address and the width computed from
its operands on the state after phase 3, a byte that changes is one of the `n` bytes at that address, and it becomes
that byte of the stored slot. -/
def Obligations.StepChangesOnlyWhatItsInstructionNames : Prop :=
  ∀ s t : State, step s = .next t →
    t.cfg = s.cfg ∧
    (∀ r, r ≠ 0#5 → t.reg r ≠ s.reg r → ∃ w i, Fetches s w ∧ decode w = .ok i ∧ i.dest = some r) ∧
    ((¬ ∃ w i f, Fetches s w ∧ decode w = .ok i ∧ storeForm i = some f) → ∀ a, t.mem.byteAt a = s.mem.byteAt a) ∧
    (∀ w i f, Fetches s w → decode w = .ok i → storeForm i = some f →
      ∀ a, t.mem.byteAt a ≠ s.mem.byteAt a →
        t.run = .running ∧
        ∃ k < f.width.bytes,
          a = (effectiveAddress s.afterFetch f.base f.imm + BitVec.ofNat 64 k).toNat ∧
          t.mem.byteAt a = (s.afterFetch.reg f.data).extractLsb' (8 * k) 8)

/-- R33, which the spec marks "derived: from rule R32", R134 and R137: every read of x0 gives 0, so what slot 0 holds
when a step starts does not reach the state a fetched word leaves. -/
def Obligations.SlotZeroContentIsNeverRead : Prop :=
  ∀ (s : State) (w : InstWord) (v : Word), Fetches s w → step (s.setReg 0#5 v) = step s

/-- R32, R34: slot 0 keeps its value over a step that halts before phase 3; every other step clears it, and it then holds
what the instruction wrote there, if it names slot 0, and otherwise 0. -/
def Obligations.SlotZeroHoldsTheLastWriteSinceItsClear : Prop :=
  ∀ s t : State, s.run = .running → step s = .next t →
    (s.pc = 0#64 ∨ ¬ offset s.cfg s.pc + 4 ≤ s.cfg.memSize → t.reg 0#5 = s.reg 0#5) ∧
    (∀ w, Fetches s w → (∀ i, decode w = .ok i → i.dest ≠ some 0#5) → t.reg 0#5 = 0#64) ∧
    (∀ w i, Fetches s w → decode w = .ok i → i.dest = some 0#5 →
      ∃ v, exec i s.afterFetch = .next (s.afterFetch.setReg 0#5 v) ∧ t.reg 0#5 = v)

/-- R142, which the spec marks "derived: from rule R133 and rule R136": the pc changes only by 4, so the core steps
through `MEM_BASE + 4k`. -/
def Obligations.RunningCoreIsAtPcPlusFourK : Prop :=
  (∀ (k : Nat) (s t : State), Host.Core.run Sys2Proof.core k s = .next t → t.run = .running →
    t.pc.toNat = (s.pc.toNat + 4 * k) % 2 ^ 64) ∧
  (∀ c image regInit memFill s k t, boot c image regInit memFill = .next s →
    Host.Core.run Sys2Proof.core k s = .next t → t.run = .running →
    t.pc.toNat = (c.memBase.toNat + 4 * k) % 2 ^ 64)

/-- From R142 and R143, both marked "derived" in the spec: with no branches, every run ends: after at most MEM_SIZE / 4
+ 1 steps the core has halted. -/
def Obligations.EveryRunHaltsWithinMemory : Prop :=
  ∀ s : State, s.cfg.valid → ∃ t, Host.Core.run Sys2Proof.core (s.cfg.memSize / 4 + 1) s = .next t ∧ t.run = .halted

/-- From 00_scope.md R5 and R6: the composition of the seven blocks is the step. The blocks and their interfaces are the
spec's own choice (D13). -/
def Obligations.BlockCompositionIsTheStep : Prop :=
  ∀ s : State, step s = .next (Blocks.stepController s)

/-! ### Invariants and reset -/

/-- R10, R40, R43, R44: the invariant of the core is kept by every step. -/
def Obligations.StepKeepsTheInvariant : Prop :=
  ∀ s t : State, s.Inv → step s = .next t → t.Inv

/-- The invariant holds at reset (in the configuration and with the values that logs 1, 2 and 3 name). -/
def Obligations.ResetMeetsTheInvariant : Prop :=
  State.reset.Inv

/-- The invariant holds in every state a core starts in, whatever the configuration and the launch parameters. -/
def Obligations.EveryBootMeetsTheInvariant : Prop :=
  ∀ c image regInit memFill s, boot c image regInit memFill = .next s → s.Inv

/-- R50 to R53, R250, R251: the state a core starts in, for every value of the OPEN parameters. That slot 0 is 0 is the
spec's own choice (D5, log 7). -/
def Obligations.BootGivesTheResetValues : Prop :=
  ∀ (c : Config) (image : List Byte) (regInit : RegFile) (memFill : Nat → Byte),
    c.valid → image.length ≤ c.memSize →
    ∃ s, boot c (some image) regInit memFill = .next s ∧
      s.pc = c.memBase ∧ s.reg 0#5 = 0#64 ∧ (∀ r, r ≠ 0#5 → s.reg r = regInit.read r) ∧
      (∀ (k : Nat) (h : k < image.length), s.mem.byteAt (c.memBase.toNat + k) = image[k]) ∧
      (∀ k, image.length ≤ k → k < c.memSize → s.mem.byteAt (c.memBase.toNat + k) = memFill k) ∧
      s.run = .running ∧ s.haltReason = .none ∧ s.cfg = c

/-- R252, R253: a core whose image cannot be read, or does not fit (the spec's own choice D15, log 7), does not start. -/
def Obligations.UnloadableImageStartsNoCore : Prop :=
  ∀ (c : Config) (regInit : RegFile) (memFill : Nat → Byte), c.valid →
    boot c none regInit memFill = .refused .imageLoadFailure ∧
    ∀ image : List Byte, c.memSize < image.length →
      boot c (some image) regInit memFill = .refused .imageLoadFailure

/-- `State.reset` is the core started in the reference configuration (log 1) with an empty image and the zeros of logs 2
and 3, which are the model's DESIGN CHOICES, and holds what that gives. -/
def Obligations.ReferenceResetState : Prop :=
  boot Config.reference (some []) (Vector.replicate 32 0#64) (fun _ => unlistedByte) = .next State.reset ∧
  State.reset.pc = 0x80000000#64 ∧ State.reset.run = .running ∧ State.reset.haltReason = .none ∧
  State.reset.mem = [] ∧ ∀ r, State.reset.reg r = 0#64

/-! ### Memory -/

/-- R63. -/
def Obligations.LoadPrimitiveReadsLittleEndian : Prop :=
  ∀ (c : Config) (m : Memory) (kind : AccessKind) (addr : Word) (w : Width),
    (offset c addr + w.bytes ≤ c.memSize → ∃ v, memRead c m kind addr w = .ok v ∧
      ∀ k < 64, v.getLsbD k = (decide (k < 8 * w.bytes) &&
        (m.byteAt (addr + BitVec.ofNat 64 (k / 8)).toNat).getLsbD (k % 8))) ∧
    (¬ offset c addr + w.bytes ≤ c.memSize → memRead c m kind addr w = .error (.outOfBounds kind addr w))

/-- R64, R65: all the bytes or none. -/
def Obligations.StorePrimitiveWritesLittleEndianOrNothing : Prop :=
  ∀ (c : Config) (m : Memory) (addr : Word) (w : Width) (v : Word),
    (offset c addr + w.bytes ≤ c.memSize → ∃ m', memWrite c m addr w v = .ok m' ∧
      (∀ k < w.bytes, m'.byteAt (addr + BitVec.ofNat 64 k).toNat = v.extractLsb' (8 * k) 8) ∧
      (∀ a, (∀ k < w.bytes, a ≠ (addr + BitVec.ofNat 64 k).toNat) → m'.byteAt a = m.byteAt a)) ∧
    (¬ offset c addr + w.bytes ≤ c.memSize → memWrite c m addr w v = .error (.outOfBounds .store addr w))

/-- R68, which the spec marks "derived: from rule R63 and rule R64": an access sees exactly the bytes it overlaps. After a
store, any load in bounds, of any width at any address, gives at each of its bytes the stored byte where it overlaps the
store and the byte that was there where it does not, and zeros above. So a load of the same width at the same address
gives the value stored, a byte load inside the store gives the byte it overlaps, and (R68's example) after an eight-byte
store at `A` the four-byte load at `A + 4` gives the value's upper half. -/
def Obligations.LoadAfterStoreSeesTheBytesItOverlaps : Prop :=
  ∀ (c : Config) (m m' : Memory) (kind : AccessKind) (addr : Word) (w : Width) (v : Word),
    memWrite c m addr w v = .ok m' →
    (∀ (b : Word) (w' : Width), offset c b + w'.bytes ≤ c.memSize →
      ∃ u, memRead c m' kind b w' = .ok u ∧ u.toNat < 2 ^ (8 * w'.bytes) ∧
        ∀ k < w'.bytes,
          (∀ i < w.bytes, b + BitVec.ofNat 64 k = addr + BitVec.ofNat 64 i →
            u.extractLsb' (8 * k) 8 = v.extractLsb' (8 * i) 8) ∧
          ((∀ i < w.bytes, b + BitVec.ofNat 64 k ≠ addr + BitVec.ofNat 64 i) →
            u.extractLsb' (8 * k) 8 = m.byteAt (b + BitVec.ofNat 64 k).toNat)) ∧
    (∃ u, memRead c m' kind addr w = .ok u ∧ u.toNat = v.toNat % 2 ^ (8 * w.bytes)) ∧
    (∀ k < w.bytes, c.valid →
      memRead c m' kind (addr + BitVec.ofNat 64 k) .w8 = .ok ((v.extractLsb' (8 * k) 8).setWidth 64)) ∧
    (w = .w64 → c.valid → memRead c m' kind (addr + 4#64) .w32 = .ok (v >>> 32))

/-- R72: repeating a store leaves the same memory, as data, for a memory in its canonical form. -/
def Obligations.RepeatedStoreLeavesTheSameMemory : Prop :=
  ∀ (c : Config) (m m' : Memory) (addr : Word) (w : Width) (v : Word), m.wf →
    memWrite c m addr w v = .ok m' → memWrite c m' addr w v = .ok m'

/-- Two memories in canonical form that read alike at every address are the same list, and a write keeps the form. -/
def Obligations.CanonicalMemoryIsItsBytes : Prop :=
  (∀ m m' : Memory, m.wf → m'.wf → (∀ a, m.byteAt a = m'.byteAt a) → m = m') ∧
  ∀ (m : Memory) (a : Nat) (b : Byte), m.wf → (m.setByte a b).wf

/-- R62's bounds check and R61's offset: an access is in bounds exactly when every byte of it lies in the mapped range,
with no wrap. That an address below `MEM_BASE` is out of bounds is what R61 marks "derived: from this rule, rule R62 and
00_scope.md rule R10". -/
def Obligations.BoundsCheckIsTheMappedRange : Prop :=
  ∀ (c : Config) (addr : Word) (w : Width), c.valid →
    (inBounds c addr w.bytes = true ↔ offset c addr + w.bytes ≤ c.memSize) ∧
    (inBounds c addr w.bytes = true ↔
      c.memBase.toNat ≤ addr.toNat ∧ addr.toNat + w.bytes ≤ c.memBase.toNat + c.memSize) ∧
    (inBounds c addr w.bytes = true ↔ ∀ k < w.bytes, mapped c (addr.toNat + k)) ∧
    (offset c addr : Int) = ((addr.toNat : Int) - c.memBase.toNat) % 2 ^ 64

/-- R79, which the spec marks "derived: from rule R76", R132 and R48: a word stored is the word fetched there next, with
nothing between. -/
def Obligations.StoredWordIsFetchedAtOnce : Prop :=
  ∀ rs1 rs2 imm (s t u : State), offset s.cfg (effectiveAddress s rs1 imm) + 4 ≤ s.cfg.memSize →
    exec (.sw rs1 rs2 imm) s = .next t → u.mem = t.mem → u.cfg = t.cfg → u.pc = effectiveAddress s rs1 imm →
    u.fetch = .ok ((s.reg rs2).setWidth 32)

/-! ### The host -/

/-- From R256 and R257: the host's loop runs the core and dumps once after each step that completes, and never else. Dump
`j` is the dump of the state after step `j + 1` where the core is Running after it, and there is none where it is not;
there are as many dumps as completed steps. A dump is the 32 slots in order, each with its ABI name and its value (R35,
R34). How long the host lets the core run is a number it is given (R141, log 13). -/
def Obligations.HostLoopRunsAndDumpsEachCompletedStep : Prop :=
  (∀ (k : Nat) (s : State), Host.Core.run Sys2Proof.core k s = .next (hostRun k s).2 ∧
    (hostRun k s).1.length = completedSteps k s ∧
    ∀ j < k, ∀ u, Host.Core.run Sys2Proof.core (j + 1) s = .next u →
      (hostRun k s).1[j]? = if u.run = .running then some u.dump else none) ∧
  (∀ (k : Nat) (s : State), (hostRun k s).2.run = .running → (hostRun k s).1.length = k) ∧
  (∀ s t : State, s.run = .running → step s = .next t → t.run = .halted → ∀ k, (hostRun (k + 1) s).1 = []) ∧
  ∀ (s : State) (r : RegIdx), s.dump.length = 32 ∧
    s.dump[r.toNat]? = (abiNames[r.toNat]?).map fun name => (name, s.reg r)
end

