-- ==== Sys2Proof/Laws/Memory.lean ====
section
/-! SUPPORT. The laws of the byte array: a byte read after a write, what a write leaves alone, and that every memory
operation keeps the canonical form. -/

namespace Sys2Proof.Machine

/-! ### One byte -/

theorem Memory.byteAt_erase (m : Memory) (a c : Nat) :
    Memory.byteAt (Memory.erase m a) c = if c = a then unlistedByte else Memory.byteAt m c := by
  induction m with
  | nil => simp [Memory.erase, Memory.byteAt]
  | cons cell rest ih =>
    obtain ⟨a', b'⟩ := cell
    by_cases h : a' = a
    · simp only [Memory.erase, h, if_true, ih, Memory.byteAt]
      by_cases hc : c = a
      · simp [hc]
      · simp [hc, Ne.symm hc]
    · simp only [Memory.erase, h, if_false, Memory.byteAt, ih]
      by_cases hc : a' = c
      · have : c ≠ a := fun e => h (hc.trans e)
        simp [hc, this]
      · simp [hc]

theorem Memory.mem_erase {m : Memory} {a : Nat} {c : Host.Cell} :
    c ∈ Memory.erase m a ↔ c ∈ m ∧ c.1 ≠ a := by
  induction m with
  | nil => simp [Memory.erase]
  | cons cell rest ih =>
    obtain ⟨a', b'⟩ := cell
    by_cases h : a' = a
    · simp only [Memory.erase, h, if_true, ih, List.mem_cons]
      constructor
      · rintro ⟨hm, hn⟩; exact ⟨.inr hm, hn⟩
      · rintro ⟨rfl | hm, hn⟩
        · exact absurd rfl hn
        · exact ⟨hm, hn⟩
    · simp only [Memory.erase, h, if_false, List.mem_cons, ih]
      constructor
      · rintro (rfl | ⟨hm, hn⟩)
        · exact ⟨.inl rfl, h⟩
        · exact ⟨.inr hm, hn⟩
      · rintro ⟨rfl | hm, hn⟩
        · exact .inl rfl
        · exact .inr ⟨hm, hn⟩

theorem Memory.mem_insertCell {m : Memory} {a : Nat} {b : Byte} {c : Host.Cell} :
    c ∈ Memory.insertCell m a b ↔ c = (a, b) ∨ c ∈ m := by
  induction m with
  | nil => simp [Memory.insertCell]
  | cons cell rest ih =>
    obtain ⟨a', b'⟩ := cell
    by_cases h : a < a'
    · simp [Memory.insertCell, h]
    · simp only [Memory.insertCell, h, if_false, List.mem_cons, ih]
      tauto

theorem Memory.byteAt_insertCell (m : Memory) (a : Nat) (b : Byte) (c : Nat) (h : ∀ cell ∈ m, cell.1 ≠ a) :
    Memory.byteAt (Memory.insertCell m a b) c = if c = a then b else Memory.byteAt m c := by
  induction m with
  | nil => simp [Memory.insertCell, Memory.byteAt, eq_comm]
  | cons cell rest ih =>
    obtain ⟨a', b'⟩ := cell
    have hne : a' ≠ a := h (a', b') List.mem_cons_self
    have ih := ih fun x hx => h x (List.mem_cons_of_mem _ hx)
    by_cases hlt : a < a'
    · simp [Memory.insertCell, hlt, Memory.byteAt, eq_comm]
    · simp only [Memory.insertCell, hlt, if_false, Memory.byteAt, ih]
      by_cases hc : a' = c
      · have : c ≠ a := fun e => hne (hc.trans e)
        simp [hc, this]
      · simp [hc]

/-- A byte write, read back at any address: the byte written there, the old byte everywhere else. -/
@[simp] theorem Memory.byteAt_setByte (m : Memory) (a : Nat) (b : Byte) (c : Nat) :
    Memory.byteAt (Memory.setByte m a b) c = if c = a then b else Memory.byteAt m c := by
  by_cases hb : b = unlistedByte
  · simp [Memory.setByte, hb, Memory.byteAt_erase]
  · simp only [Memory.setByte, hb, if_false]
    rw [Memory.byteAt_insertCell _ _ _ _ fun cell hc => (Memory.mem_erase.1 hc).2, Memory.byteAt_erase]
    by_cases hc : c = a <;> simp [hc]

theorem Memory.mem_setByte {m : Memory} {a : Nat} {b : Byte} {c : Host.Cell} (h : c ∈ Memory.setByte m a b) :
    c = (a, b) ∨ c ∈ m := by
  unfold Memory.setByte at h
  split at h
  · exact .inr (Memory.mem_erase.1 h).1
  · rcases Memory.mem_insertCell.1 h with h | h
    · exact .inl h
    · exact .inr (Memory.mem_erase.1 h).1

/-! ### The canonical form -/

theorem Memory.erase_wf {m : Memory} (a : Nat) (h : Memory.wf m) : Memory.wf (Memory.erase m a) := by
  refine ⟨?_, fun c hc => h.2 c (Memory.mem_erase.1 hc).1⟩
  have hp := h.1
  clear h
  induction m with
  | nil => exact List.Pairwise.nil
  | cons cell rest ih =>
    obtain ⟨a', b'⟩ := cell
    rw [List.pairwise_cons] at hp
    by_cases he : a' = a
    · simpa [Memory.erase, he] using ih hp.2
    · simp only [Memory.erase, he, if_false, List.pairwise_cons]
      exact ⟨fun c hc => hp.1 c (Memory.mem_erase.1 hc).1, ih hp.2⟩

theorem Memory.insertCell_wf {m : Memory} {a : Nat} {b : Byte} (h : Memory.wf m) (ha : ∀ c ∈ m, c.1 ≠ a)
    (hb : b ≠ unlistedByte) : Memory.wf (Memory.insertCell m a b) := by
  refine ⟨?_, fun c hc => (Memory.mem_insertCell.1 hc).elim (fun e => by simpa [e] using hb) (h.2 c)⟩
  have hp := h.1
  clear h
  induction m with
  | nil => simp [Memory.insertCell]
  | cons cell rest ih =>
    obtain ⟨a', b'⟩ := cell
    have hne : a' ≠ a := ha (a', b') List.mem_cons_self
    rw [List.pairwise_cons] at hp
    by_cases hlt : a < a'
    · simp only [Memory.insertCell, hlt, if_true, List.pairwise_cons]
      refine ⟨fun c hc => ?_, hp⟩
      rcases List.mem_cons.1 hc with rfl | hc
      · exact hlt
      · exact lt_trans hlt (hp.1 c hc)
    · simp only [Memory.insertCell, hlt, if_false, List.pairwise_cons]
      refine ⟨fun c hc => ?_, ih (fun c hc => ha c (List.mem_cons_of_mem _ hc)) hp.2⟩
      rcases Memory.mem_insertCell.1 hc with rfl | hc
      · exact lt_of_le_of_ne (not_lt.1 hlt) hne
      · exact hp.1 c hc

/-- Every byte write keeps the canonical form. -/
theorem Memory.setByte_wf {m : Memory} (a : Nat) (b : Byte) (h : Memory.wf m) : Memory.wf (Memory.setByte m a b) := by
  unfold Memory.setByte
  split
  · exact Memory.erase_wf a h
  · exact Memory.insertCell_wf (Memory.erase_wf a h) (fun c hc => (Memory.mem_erase.1 hc).2) ‹_›

/-- Every wide write keeps the canonical form. -/
theorem Memory.writeLE_wf {m : Memory} (addr : Word) (n : Nat) (v : Word) (h : Memory.wf m) :
    Memory.wf (Memory.writeLE m addr n v) := by
  induction n generalizing m addr v with
  | zero => exact h
  | succ n ih => exact ih _ _ (Memory.setByte_wf _ _ h)

/-- The memory that reset fills is in canonical form. -/
theorem fillMemory_wf (base : Nat) (f : Nat → Byte) (size : Nat) : Memory.wf (fillMemory base f size) := by
  induction size with
  | zero => exact ⟨List.Pairwise.nil, by simp [fillMemory]⟩
  | succ n ih => exact Memory.setByte_wf _ _ ih

/-! ### Wide accesses -/

theorem toNat_add_ofNat (addr : Word) (i : Nat) :
    (addr + BitVec.ofNat 64 i).toNat = (addr.toNat + i) % 2 ^ 64 := by
  simp [BitVec.toNat_add]

/-- A wide write leaves every address alone that is none of its `n`. -/
theorem Memory.byteAt_writeLE_other (m : Memory) (addr : Word) (n : Nat) (v : Word) (c : Nat)
    (h : ∀ i < n, c ≠ (addr + BitVec.ofNat 64 i).toNat) :
    Memory.byteAt (Memory.writeLE m addr n v) c = Memory.byteAt m c := by
  induction n generalizing m addr v with
  | zero => rfl
  | succ n ih =>
    rw [Memory.writeLE, ih]
    · have h0 := h 0 (Nat.succ_pos n)
      simp only [BitVec.add_zero] at h0
      simp [h0]
    · intro i hi
      have := h (i + 1) (Nat.succ_lt_succ hi)
      rwa [show addr + 1#64 + BitVec.ofNat 64 i = addr + BitVec.ofNat 64 (i + 1) by
        apply BitVec.eq_of_toNat_eq; simp [BitVec.toNat_add, Nat.add_assoc, Nat.add_comm 1 i]]

/-- Byte `i` of a wide write is byte `i` of the value, least significant first. -/
theorem Memory.byteAt_writeLE (m : Memory) (addr : Word) (n : Nat) (v : Word) (i : Nat) (hi : i < n) (hn : n ≤ 8) :
    Memory.byteAt (Memory.writeLE m addr n v) (addr + BitVec.ofNat 64 i).toNat = v.extractLsb' (8 * i) 8 := by
  induction n generalizing m addr v i with
  | zero => omega
  | succ n ih =>
    rw [Memory.writeLE]
    cases i with
    | zero =>
      rw [Memory.byteAt_writeLE_other]
      · simp only [BitVec.add_zero, Memory.byteAt_setByte, if_true, Nat.mul_zero]
        ext k hk
        simp [BitVec.getElem_setWidth]
      · intro j hj
        have : (addr + BitVec.ofNat 64 0) = addr := by simp
        rw [this]
        intro e
        have e2 : (addr + 1#64 + BitVec.ofNat 64 j).toNat = (addr.toNat + (1 + j)) % 2 ^ 64 := by
          simp [BitVec.toNat_add, Nat.add_assoc]
        rw [e2] at e
        have := addr.isLt
        omega
    | succ i =>
      have e : addr + BitVec.ofNat 64 (i + 1) = addr + 1#64 + BitVec.ofNat 64 i := by
        apply BitVec.eq_of_toNat_eq; simp [BitVec.toNat_add, Nat.add_assoc, Nat.add_comm 1 i]
      rw [e, ih _ _ _ _ (by omega) (by omega)]
      ext k hk
      simp only [BitVec.getElem_extractLsb', BitVec.getLsbD_ushiftRight]
      congr 1
      omega

/-- The bits of a wide read are those of the bytes it reads; those past its width are zero (R63). -/
theorem Memory.getLsbD_readLE (m : Memory) (addr : Word) (n k : Nat) (hn : n ≤ 8) :
    (Memory.readLE m addr n).getLsbD k =
      (decide (k < 8 * n) && (Memory.byteAt m (addr + BitVec.ofNat 64 (k / 8)).toNat).getLsbD (k % 8)) := by
  induction n generalizing addr k with
  | zero => simp [Memory.readLE]
  | succ n ih =>
    rw [Memory.readLE, BitVec.getLsbD_or, BitVec.getLsbD_shiftLeft, ih _ _ (by omega), BitVec.getLsbD_setWidth]
    by_cases h8 : k < 8
    · have h1 : k / 8 = 0 := by omega
      have h2 : k % 8 = k := by omega
      have h3 : k < 64 := by omega
      have h4 : k < 8 * (n + 1) := by omega
      simp [h1, h2, h3, h4, h8]
    · have e : addr + 1#64 + BitVec.ofNat 64 ((k - 8) / 8) = addr + BitVec.ofNat 64 (k / 8) := by
        have : k / 8 = (k - 8) / 8 + 1 := by omega
        apply BitVec.eq_of_toNat_eq
        simp [this, BitVec.toNat_add, Nat.add_assoc, Nat.add_comm 1]
      have h5 : (k - 8) % 8 = k % 8 := by omega
      have h6 : (Memory.byteAt m addr.toNat).getLsbD k = false := BitVec.getLsbD_of_ge _ _ (by omega)
      rw [e, h5, h6]
      by_cases h7 : k < 8 * (n + 1)
      · have h9 : k - 8 < 8 * n := by omega
        have h10 : k < 64 := by omega
        simp [h7, h8, h9, h10]
      · have h9 : ¬ k - 8 < 8 * n := by omega
        simp [h7, h9]

/-- Byte `k` of a little-endian read is the byte at its address. -/
theorem Memory.byte_readLE (m : Memory) (addr : Word) (n k : Nat) (hn : n ≤ 8) (hk : k < n) :
    (m.readLE addr n).extractLsb' (8 * k) 8 = m.byteAt (addr + BitVec.ofNat 64 k).toNat := by
  apply BitVec.eq_of_getLsbD_eq
  intro j hj
  rw [BitVec.getLsbD_extractLsb', Memory.getLsbD_readLE _ _ _ _ hn]
  simp [hj, show 8 * k + j < 8 * n by omega, show (8 * k + j) / 8 = k by omega, show (8 * k + j) % 8 = j by omega]

/-- A little-endian read of `n` bytes has `8n` bits at most. -/
theorem Memory.toNat_readLE_lt (m : Memory) (addr : Word) (n : Nat) (hn : n ≤ 8) :
    (m.readLE addr n).toNat < 2 ^ (8 * n) := by
  apply Nat.lt_pow_two_of_testBit
  intro k hk
  have := Memory.getLsbD_readLE m addr n k hn
  simpa [BitVec.getLsbD, show ¬ k < 8 * n by omega] using this

/-- Reading back the bytes just written gives the value's low `8n` bits. -/
theorem Memory.getLsbD_readLE_writeLE (m : Memory) (addr : Word) (n : Nat) (v : Word) (k : Nat) (hn : n ≤ 8) :
    ((m.writeLE addr n v).readLE addr n).getLsbD k = (decide (k < 8 * n) && v.getLsbD k) := by
  rw [Memory.getLsbD_readLE _ _ _ _ hn]
  by_cases h : k < 8 * n
  · rw [Memory.byteAt_writeLE _ _ _ _ _ (by omega) hn]
    simp [h, Nat.mod_lt, Nat.div_add_mod]
  · simp [h]

/-- The cells of a wide write are those there were and the addresses written. -/
theorem Memory.mem_writeLE {m : Memory} {addr : Word} {n : Nat} {v : Word} {c : Host.Cell}
    (h : c ∈ Memory.writeLE m addr n v) : c ∈ m ∨ ∃ i < n, c.1 = (addr + BitVec.ofNat 64 i).toNat := by
  induction n generalizing m addr v with
  | zero => exact .inl h
  | succ n ih =>
    rcases ih h with h | ⟨i, hi, h⟩
    · rcases Memory.mem_setByte h with rfl | h
      · exact .inr ⟨0, Nat.succ_pos n, by simp⟩
      · exact .inl h
    · refine .inr ⟨i + 1, Nat.succ_lt_succ hi, ?_⟩
      rw [h]
      simp [BitVec.toNat_add, Nat.add_assoc, Nat.add_comm 1 i]

/-- Offset `k` of a filled memory holds `f k`; every other address reads as unlisted. -/
theorem byteAt_fillMemory (base : Nat) (f : Nat → Byte) (size a : Nat) :
    Memory.byteAt (fillMemory base f size) a =
      if base ≤ a ∧ a < base + size then f (a - base) else unlistedByte := by
  induction size with
  | zero =>
    have h : ¬ (base ≤ a ∧ a < base + 0) := by omega
    rw [if_neg h]; rfl
  | succ n ih =>
    rw [fillMemory, Memory.byteAt_setByte, ih]
    by_cases h : a = base + n
    · subst h; simp
    · simp only [h, if_false]
      by_cases h2 : base ≤ a ∧ a < base + n
      · rw [if_pos h2, if_pos ⟨h2.1, by omega⟩]
      · rw [if_neg h2, if_neg (by omega)]

/-- A filled memory lists no address outside its range. -/
theorem mem_fillMemory {base : Nat} {f : Nat → Byte} {size : Nat} {c : Host.Cell} (h : c ∈ fillMemory base f size) :
    base ≤ c.1 ∧ c.1 < base + size := by
  induction size with
  | zero => simp [fillMemory] at h
  | succ n ih =>
    rcases Memory.mem_setByte h with rfl | h
    · exact ⟨by simp, by simp⟩
    · have := ih h; omega

/-- A memory filled with what an unlisted address reads as lists nothing. -/
theorem fillMemory_unlisted (base size : Nat) : fillMemory base (fun _ => unlistedByte) size = [] := by
  induction size with
  | zero => rfl
  | succ n ih => rw [fillMemory, ih]; simp [Memory.setByte, Memory.erase]

end Sys2Proof.Machine
end

