-- ==== Sys2Proof/Laws/State.lean ====
section
/-! SUPPORT. One lemma per field per update of the state, so that no later proof unfolds a record update. -/

namespace Sys2Proof.Machine

/-! ### The register file -/

@[simp] theorem RegFile.read_write (x : RegFile) (r r' : RegIdx) (v : Word) :
    RegFile.read (RegFile.write x r v) r' = if r' = r then v else RegFile.read x r' := by
  simp only [RegFile.read, RegFile.write, Vector.get_eq_getElem, Vector.getElem_set]
  by_cases h : r' = r
  · simp [h]
  · have : r.toNat ≠ r'.toNat := fun e => h (BitVec.eq_of_toNat_eq e.symm)
    simp [h, this]

/-- Two register files that read alike at every register number are equal. -/
theorem RegFile.ext_read {x y : RegFile} (h : ∀ r, RegFile.read x r = RegFile.read y r) : x = y := by
  apply Vector.ext
  intro i hi
  have := h (BitVec.ofNat 5 i)
  simp only [RegFile.read, Vector.get_eq_getElem, BitVec.toNat_ofNat] at this
  have e : i % 2 ^ 5 = i := Nat.mod_eq_of_lt (by omega)
  simpa only [e] using this

/-! ### setReg -/

@[simp] theorem State.setReg_reg (s : State) (r r' : RegIdx) (v : Word) :
    (s.setReg r v).reg r' = if r' = r then v else s.reg r' := RegFile.read_write s.x r r' v
@[simp] theorem State.setReg_pc (s : State) (r : RegIdx) (v : Word) : (s.setReg r v).pc = s.pc := rfl
@[simp] theorem State.setReg_mem (s : State) (r : RegIdx) (v : Word) : (s.setReg r v).mem = s.mem := rfl
@[simp] theorem State.setReg_run (s : State) (r : RegIdx) (v : Word) : (s.setReg r v).run = s.run := rfl
@[simp] theorem State.setReg_haltReason (s : State) (r : RegIdx) (v : Word) :
    (s.setReg r v).haltReason = s.haltReason := rfl
@[simp] theorem State.setReg_cfg (s : State) (r : RegIdx) (v : Word) : (s.setReg r v).cfg = s.cfg := rfl

/-! ### halt -/

@[simp] theorem State.halt_x (s : State) (h : HaltReason) : (s.halt h).x = s.x := rfl
@[simp] theorem State.halt_reg (s : State) (h : HaltReason) (r : RegIdx) : (s.halt h).reg r = s.reg r := rfl
@[simp] theorem State.halt_pc (s : State) (h : HaltReason) : (s.halt h).pc = s.pc := rfl
@[simp] theorem State.halt_mem (s : State) (h : HaltReason) : (s.halt h).mem = s.mem := rfl
@[simp] theorem State.halt_run (s : State) (h : HaltReason) : (s.halt h).run = .halted := rfl
@[simp] theorem State.halt_haltReason (s : State) (h : HaltReason) : (s.halt h).haltReason = h := rfl
@[simp] theorem State.halt_cfg (s : State) (h : HaltReason) : (s.halt h).cfg = s.cfg := rfl

/-! ### advancePc -/

@[simp] theorem State.advancePc_x (s : State) : s.advancePc.x = s.x := rfl
@[simp] theorem State.advancePc_reg (s : State) (r : RegIdx) : s.advancePc.reg r = s.reg r := rfl
@[simp] theorem State.advancePc_pc (s : State) : s.advancePc.pc = s.pc + 4#64 := rfl
@[simp] theorem State.advancePc_mem (s : State) : s.advancePc.mem = s.mem := rfl
@[simp] theorem State.advancePc_run (s : State) : s.advancePc.run = s.run := rfl
@[simp] theorem State.advancePc_haltReason (s : State) : s.advancePc.haltReason = s.haltReason := rfl
@[simp] theorem State.advancePc_cfg (s : State) : s.advancePc.cfg = s.cfg := rfl

/-! ### clearSlot0 -/

@[simp] theorem State.clearSlot0_reg (s : State) (r : RegIdx) :
    s.clearSlot0.reg r = if r = 0#5 then 0#64 else s.reg r := State.setReg_reg s 0#5 r 0#64
@[simp] theorem State.clearSlot0_pc (s : State) : s.clearSlot0.pc = s.pc := rfl
@[simp] theorem State.clearSlot0_mem (s : State) : s.clearSlot0.mem = s.mem := rfl
@[simp] theorem State.clearSlot0_run (s : State) : s.clearSlot0.run = s.run := rfl
@[simp] theorem State.clearSlot0_haltReason (s : State) : s.clearSlot0.haltReason = s.haltReason := rfl
@[simp] theorem State.clearSlot0_cfg (s : State) : s.clearSlot0.cfg = s.cfg := rfl

/-! ### afterFetch -/

@[simp] theorem State.afterFetch_reg (s : State) (r : RegIdx) :
    s.afterFetch.reg r = if r = 0#5 then 0#64 else s.reg r := State.clearSlot0_reg s.advancePc r
@[simp] theorem State.afterFetch_pc (s : State) : s.afterFetch.pc = s.pc + 4#64 := rfl
@[simp] theorem State.afterFetch_mem (s : State) : s.afterFetch.mem = s.mem := rfl
@[simp] theorem State.afterFetch_run (s : State) : s.afterFetch.run = s.run := rfl
@[simp] theorem State.afterFetch_haltReason (s : State) : s.afterFetch.haltReason = s.haltReason := rfl
@[simp] theorem State.afterFetch_cfg (s : State) : s.afterFetch.cfg = s.cfg := rfl

/-! ### placeWord -/

@[simp] theorem State.placeWord_x (s : State) (w : InstWord) : (s.placeWord w).x = s.x := rfl
@[simp] theorem State.placeWord_reg (s : State) (w : InstWord) (r : RegIdx) : (s.placeWord w).reg r = s.reg r := rfl
@[simp] theorem State.placeWord_pc (s : State) (w : InstWord) : (s.placeWord w).pc = s.pc := rfl
@[simp] theorem State.placeWord_mem (s : State) (w : InstWord) :
    (s.placeWord w).mem = s.mem.writeLE s.pc 4 (w.setWidth 64) := rfl
@[simp] theorem State.placeWord_run (s : State) (w : InstWord) : (s.placeWord w).run = .running := rfl
@[simp] theorem State.placeWord_haltReason (s : State) (w : InstWord) : (s.placeWord w).haltReason = .none := rfl
@[simp] theorem State.placeWord_cfg (s : State) (w : InstWord) : (s.placeWord w).cfg = s.cfg := rfl

end Sys2Proof.Machine
end

