-- ==== Sys2Proof/Laws/Boot.lean ====
section
/-! SUPPORT. What boot can do. -/

namespace Sys2Proof.Machine

/-- Boot starts the core exactly for a valid configuration and a readable image that fits (R10, R252, R253). -/
theorem boot_next_iff {c : Config} {image : Option (List Byte)} {regInit : RegFile} {memFill : Nat → Byte} {s : State} :
    boot c image regInit memFill = .next s ↔
      c.valid ∧ ∃ bytes, image = some bytes ∧ bytes.length ≤ c.memSize ∧ s = initialState c bytes regInit memFill := by
  unfold boot
  split
  · rename_i hv
    cases image with
    | none => simp
    | some bytes =>
      by_cases hl : bytes.length ≤ c.memSize
      · simp only [hl, if_true, Host.Outcome.next.injEq, Option.some.injEq, exists_eq_left']
        exact ⟨fun h => ⟨hv, trivial, h.symm⟩, fun h => h.2.2.symm⟩
      · simp [hl]
  · rename_i hv
    simp [hv]

/-- `State.reset` is the boot of the reference configuration with an empty image and every OPEN byte and slot zero. -/
theorem boot_reference :
    boot Config.reference (some []) (Vector.replicate 32 0#64) (fun _ => unlistedByte) = .next State.reset := by
  refine boot_next_iff.2 ⟨by decide, [], rfl, Nat.zero_le _, ?_⟩
  have hm : fillMemory Config.reference.memBase.toNat (initialByte [] fun _ => unlistedByte) Config.reference.memSize = [] :=
    fillMemory_unlisted _ _
  have hx : RegFile.write (Vector.replicate 32 0#64) 0#5 0#64 = (Vector.replicate 32 0#64 : RegFile) := by decide
  simp [State.reset, initialState, hm, hx]

end Sys2Proof.Machine
end

