-- ==== Sys2Proof/Laws/Decode.lean ====
section
/-! SUPPORT. The fields of an encoded word: what the decoder's field functions read from each format of R100. -/

namespace Sys2Proof

section
variable (f7 : BitVec 7) (rs2 rs1 rd : RegIdx) (f3 : BitVec 3) (opcode : BitVec 7) (imm : BitVec 12)

/-- The bits of a format R word, field by field from bit 0 (R100). -/
theorem getLsbD_formatR (k : Nat) :
    (formatR f7 rs2 rs1 f3 rd opcode).getLsbD k =
      if k < 7 then opcode.getLsbD k
      else if k < 12 then rd.getLsbD (k - 7)
      else if k < 15 then f3.getLsbD (k - 12)
      else if k < 20 then rs1.getLsbD (k - 15)
      else if k < 25 then rs2.getLsbD (k - 20)
      else f7.getLsbD (k - 25) := by
  simp only [formatR, BitVec.getLsbD_cast, BitVec.getLsbD_append]
  rw [show k - 7 - 5 - 3 - 5 - 5 = k - 25 by omega, show k - 7 - 5 - 3 - 5 = k - 20 by omega,
    show k - 7 - 5 - 3 = k - 15 by omega, show k - 7 - 5 = k - 12 by omega]
  by_cases h1 : k < 7
  · simp [h1]
  by_cases h2 : k < 12
  · simp [h1, h2, show k - 7 < 5 by omega]
  by_cases h3 : k < 15
  · simp [h1, h2, h3, show ¬ k - 7 < 5 by omega, show k - 12 < 3 by omega]
  by_cases h4 : k < 20
  · simp [h1, h2, h3, h4, show ¬ k - 7 < 5 by omega, show ¬ k - 12 < 3 by omega, show k - 15 < 5 by omega]
  by_cases h5 : k < 25
  · simp [h1, h2, h3, h4, h5, show ¬ k - 7 < 5 by omega, show ¬ k - 12 < 3 by omega, show ¬ k - 15 < 5 by omega,
      show k - 20 < 5 by omega]
  · simp [h1, h2, h3, h4, h5, show ¬ k - 7 < 5 by omega, show ¬ k - 12 < 3 by omega, show ¬ k - 15 < 5 by omega,
      show ¬ k - 20 < 5 by omega]

@[simp] theorem opcodeOf_formatR : opcodeOf (formatR f7 rs2 rs1 f3 rd opcode) = opcode := by
  apply BitVec.eq_of_getLsbD_eq
  intro k hk
  simp [opcodeOf, getLsbD_formatR, hk]

@[simp] theorem rdOf_formatR : rdOf (formatR f7 rs2 rs1 f3 rd opcode) = rd := by
  apply BitVec.eq_of_getLsbD_eq
  intro k hk
  simp [rdOf, getLsbD_formatR, hk, show 7 + k < 12 by omega]

@[simp] theorem funct3Of_formatR : funct3Of (formatR f7 rs2 rs1 f3 rd opcode) = f3 := by
  apply BitVec.eq_of_getLsbD_eq
  intro k hk
  simp [funct3Of, getLsbD_formatR, hk, show ¬ 12 + k < 7 by omega,
    show 12 + k < 15 by omega]

@[simp] theorem rs1Of_formatR : rs1Of (formatR f7 rs2 rs1 f3 rd opcode) = rs1 := by
  apply BitVec.eq_of_getLsbD_eq
  intro k hk
  simp [rs1Of, getLsbD_formatR, hk, show ¬ 15 + k < 7 by omega,
    show ¬ 15 + k < 12 by omega, show 15 + k < 20 by omega]

@[simp] theorem rs2Of_formatR : rs2Of (formatR f7 rs2 rs1 f3 rd opcode) = rs2 := by
  apply BitVec.eq_of_getLsbD_eq
  intro k hk
  simp [rs2Of, getLsbD_formatR, hk, show ¬ 20 + k < 7 by omega,
    show ¬ 20 + k < 12 by omega, show ¬ 20 + k < 15 by omega, show 20 + k < 25 by omega]

@[simp] theorem shamtOf_formatR : shamtOf (formatR f7 rs2 rs1 f3 rd opcode) = rs2 :=
  rs2Of_formatR f7 rs2 rs1 rd f3 opcode

@[simp] theorem funct7Of_formatR : funct7Of (formatR f7 rs2 rs1 f3 rd opcode) = f7 := by
  apply BitVec.eq_of_getLsbD_eq
  intro k hk
  simp [funct7Of, getLsbD_formatR, hk, show ¬ 25 + k < 7 by omega,
    show ¬ 25 + k < 12 by omega, show ¬ 25 + k < 15 by omega, show ¬ 25 + k < 20 by omega]

/-- The two halves of a 12-bit immediate, joined again. -/
theorem immHalves_append : imm.extractLsb' 5 7 ++ imm.extractLsb' 0 5 = imm := by
  apply BitVec.eq_of_getLsbD_eq
  intro k hk
  rw [BitVec.getLsbD_append]
  by_cases h5 : k < 5
  · simp [h5]
  · simp [h5, show k - 5 < 7 by omega, show 5 + (k - 5) = k by omega]

/-- Format I is format R with the immediate's halves in the places of funct7 and rs2 (R100). -/
theorem formatI_eq_formatR :
    formatI imm rs1 f3 rd opcode = formatR (imm.extractLsb' 5 7) (imm.extractLsb' 0 5) rs1 f3 rd opcode := by
  unfold formatI formatR
  rw [immHalves_append]

/-- Format S is format R with the immediate's halves in the places of funct7 and rd (R100). -/
theorem formatS_eq_formatR :
    formatS imm rs2 rs1 f3 opcode = formatR (imm.extractLsb' 5 7) rs2 rs1 f3 (imm.extractLsb' 0 5) opcode := rfl

end

end Sys2Proof
end

