-- ==== Sys2Proof/Laws/Ops.lean ====
section
/-! SUPPORT. What each shared operation can do, said once: the bounds check, the load and store primitives, the
fetch, write-back, a store, an instruction, a step. -/

namespace Sys2Proof.Machine

/-! ### The bounds check and the primitives -/

theorem inBounds_iff {c : Config} {addr : Word} {n : Nat} :
    inBounds c addr n = true ↔ offset c addr + n ≤ c.memSize := by
  simp [inBounds]

theorem memRead_of_inBounds {c : Config} {m : Memory} {k : AccessKind} {addr : Word} {w : Width}
    (h : inBounds c addr w.bytes = true) : memRead c m k addr w = .ok (m.readLE addr w.bytes) := by
  simp [memRead, h]

theorem memRead_of_outOfBounds {c : Config} {m : Memory} {k : AccessKind} {addr : Word} {w : Width}
    (h : inBounds c addr w.bytes = false) : memRead c m k addr w = .error (.outOfBounds k addr w) := by
  simp [memRead, h]

theorem memWrite_of_inBounds {c : Config} {m : Memory} {addr : Word} {w : Width} {v : Word}
    (h : inBounds c addr w.bytes = true) : memWrite c m addr w v = .ok (m.writeLE addr w.bytes v) := by
  simp [memWrite, h]

theorem memWrite_of_outOfBounds {c : Config} {m : Memory} {addr : Word} {w : Width} {v : Word}
    (h : inBounds c addr w.bytes = false) : memWrite c m addr w v = .error (.outOfBounds .store addr w) := by
  simp [memWrite, h]

theorem Width.bytes_pos (w : Width) : 0 < w.bytes := by cases w <;> decide
theorem Width.bytes_le (w : Width) : w.bytes ≤ 8 := by cases w <;> decide

/-! ### Phase 1 -/

/-- A fetch gives the low 32 bits of the four bytes at `pc`, or fails with its own address and width. -/
theorem State.fetch_cases (s : State) :
    (inBounds s.cfg s.pc 4 = true ∧ s.fetch = .ok ((s.mem.readLE s.pc 4).setWidth 32)) ∨
    (inBounds s.cfg s.pc 4 = false ∧ s.fetch = .error (.outOfBounds .fetch s.pc .w32)) := by
  cases h : inBounds s.cfg s.pc 4
  · refine .inr ⟨rfl, ?_⟩
    simp [State.fetch, memRead, Width.bytes, h]
  · refine .inl ⟨rfl, ?_⟩
    simp [State.fetch, memRead, Width.bytes, h]

/-- A word placed at `pc` is the word fetched there, wherever a fetch is in bounds. -/
theorem State.fetch_placeWord (s : State) (w : InstWord) (h : inBounds s.cfg s.pc 4 = true) :
    (s.placeWord w).fetch = .ok w := by
  rcases (s.placeWord w).fetch_cases with ⟨_, e⟩ | ⟨h', _⟩
  · rw [e]
    congr 1
    apply BitVec.eq_of_getLsbD_eq
    intro k hk
    have := Memory.getLsbD_readLE_writeLE s.mem s.pc 4 (w.setWidth 64) k (by omega)
    rw [BitVec.getLsbD_setWidth, State.placeWord_mem, State.placeWord_pc, this]
    simp [hk, show k < 64 by omega]
  · simp [h] at h'

/-- So a step from a state with an instruction's word placed runs exactly that instruction. -/
theorem step_placeWord (s : State) (w : InstWord) (i : Instr) (hp : s.pc ≠ 0#64) (h : inBounds s.cfg s.pc 4 = true)
    (hd : decode w = .ok i) : step (s.placeWord w) = exec i (s.placeWord w).afterFetch := by
  simp [step, runPhases, State.atSentinel, hp, State.fetch_placeWord s w h, dispatchWord, hd]

/-! ### Phase 5 -/

/-- What a write-back can do: it writes its slot and stops nothing. -/
theorem writeBack_eq (rd : RegIdx) (v : Word) (s : State) : writeBack rd v s = .next (s.setReg rd v) := rfl

/-- What a store can do: write its bytes in bounds, or halt with nothing written. -/
theorem store_cases (addr : Word) (w : Width) (v : Word) (s : State) :
    (inBounds s.cfg addr w.bytes = true ∧
      store addr w v s = .next { s with mem := s.mem.writeLE addr w.bytes v }) ∨
    (inBounds s.cfg addr w.bytes = false ∧ store addr w v s = .next (s.halt (.outOfBounds .store addr w))) := by
  cases h : inBounds s.cfg addr w.bytes
  · exact .inr ⟨rfl, by simp [store, memWrite_of_outOfBounds h]⟩
  · exact .inl ⟨rfl, by simp [store, memWrite_of_inBounds h]⟩

/-- An instruction with a store's operands performs that store, and names no destination slot. -/
theorem exec_of_storeForm {i : Instr} {f : StoreForm} (h : storeForm i = some f) (s : State) :
    i.dest = none ∧ exec i s = store (effectiveAddress s f.base f.imm) f.width (s.reg f.data) s := by
  cases i <;> cases h <;> exact ⟨rfl, rfl⟩

/-- An instruction with no store's operands writes the one slot it names. -/
theorem exec_of_not_storeForm {i : Instr} (h : storeForm i = none) (s : State) :
    ∃ rd v, i.dest = some rd ∧ exec i s = .next (s.setReg rd v) := by
  cases i <;> first | exact ⟨_, _, rfl, rfl⟩ | cases h

/-- What an instruction can do: write the one slot it names, or store its bytes in bounds, or halt on its store out of
bounds. -/
theorem exec_cases (i : Instr) (s : State) :
    (∃ rd v, i.dest = some rd ∧ storeForm i = none ∧ exec i s = .next (s.setReg rd v)) ∨
    (∃ f, i.dest = none ∧ storeForm i = some f ∧
      inBounds s.cfg (effectiveAddress s f.base f.imm) f.width.bytes = true ∧
      exec i s = .next
        { s with mem := s.mem.writeLE (effectiveAddress s f.base f.imm) f.width.bytes (s.reg f.data) }) ∨
    (∃ f, i.dest = none ∧ storeForm i = some f ∧
      inBounds s.cfg (effectiveAddress s f.base f.imm) f.width.bytes = false ∧
      exec i s = .next (s.halt (.outOfBounds .store (effectiveAddress s f.base f.imm) f.width))) := by
  cases hf : storeForm i with
  | none =>
    obtain ⟨rd, v, hd, he⟩ := exec_of_not_storeForm hf s
    exact .inl ⟨rd, v, hd, rfl, he⟩
  | some f =>
    obtain ⟨hd, he⟩ := exec_of_storeForm hf s
    rcases store_cases (effectiveAddress s f.base f.imm) f.width (s.reg f.data) s with ⟨hb, h⟩ | ⟨hb, h⟩
    · exact .inr (.inl ⟨f, hd, rfl, hb, he.trans h⟩)
    · exact .inr (.inr ⟨f, hd, rfl, hb, he.trans h⟩)

/-! ### A step -/

/-- What a step can do: stay halted, halt on the sentinel, on a fetch or on a word with no operation, or run the
decoded instruction. -/
theorem step_cases (s : State) :
    (s.run = .halted ∧ step s = .next s) ∨
    (s.run = .running ∧ s.pc = 0#64 ∧ step s = .next (s.halt .sentinelPc)) ∨
    (s.run = .running ∧ s.pc ≠ 0#64 ∧ inBounds s.cfg s.pc 4 = false ∧
      step s = .next (s.halt (.outOfBounds .fetch s.pc .w32))) ∨
    (∃ w e, s.run = .running ∧ s.pc ≠ 0#64 ∧ inBounds s.cfg s.pc 4 = true ∧ s.fetch = .ok w ∧ decode w = .error e ∧
      step s = .next (s.afterFetch.halt (.unrecognizedInstruction (opcodeOf w) (funct3Of w) (funct7Of w)))) ∨
    (∃ w i, s.run = .running ∧ s.pc ≠ 0#64 ∧ inBounds s.cfg s.pc 4 = true ∧ s.fetch = .ok w ∧ decode w = .ok i ∧
      step s = exec i s.afterFetch) := by
  cases hr : s.run
  · right
    by_cases hp : s.pc = 0#64
    · exact .inl ⟨rfl, hp, by simp [step, runPhases, hr, State.atSentinel, hp]⟩
    · right
      rcases s.fetch_cases with ⟨hb, hf⟩ | ⟨hb, hf⟩
      · right
        cases hd : decode ((s.mem.readLE s.pc 4).setWidth 32) with
        | error e =>
          refine .inl ⟨_, e, rfl, hp, hb, hf, hd, ?_⟩
          simp [step, runPhases, hr, State.atSentinel, hp, hf, dispatchWord, hd]
        | ok i =>
          refine .inr ⟨_, i, rfl, hp, hb, hf, hd, ?_⟩
          simp [step, runPhases, hr, State.atSentinel, hp, hf, dispatchWord, hd]
      · refine .inl ⟨rfl, hp, hb, ?_⟩
        simp [step, runPhases, hr, State.atSentinel, hp, hf]
  · exact .inl ⟨rfl, by simp [step, runPhases, hr]⟩

end Sys2Proof.Machine
end

