-- ==== Sys2Proof/Laws/PerInstr.lean ====
section
/-! SUPPORT. Laws that hold of every instruction, one lemma per constructor. -/

namespace Sys2Proof.Laws.EncodedDispatch

/-- The word of an instruction dispatches to its own operation. -/
def Statement (i : Instr) : Prop :=
  dispatch (opcodeOf (encode i)) (funct3Of (encode i)) (funct7Of (encode i)) = some i.op

theorem add (rd rs1 rs2 : RegIdx) : Statement (.add rd rs1 rs2) := by
  simp [Statement, encode, Instr.op, dispatch, dispatchR]
theorem sub (rd rs1 rs2 : RegIdx) : Statement (.sub rd rs1 rs2) := by
  simp [Statement, encode, Instr.op, dispatch, dispatchR]
theorem sll (rd rs1 rs2 : RegIdx) (funct7 : BitVec 7) : Statement (.sll rd rs1 rs2 funct7) := by
  simp [Statement, encode, Instr.op, dispatch, dispatchR]
theorem slt (rd rs1 rs2 : RegIdx) (funct7 : BitVec 7) : Statement (.slt rd rs1 rs2 funct7) := by
  simp [Statement, encode, Instr.op, dispatch, dispatchR]
theorem sltu (rd rs1 rs2 : RegIdx) (funct7 : BitVec 7) : Statement (.sltu rd rs1 rs2 funct7) := by
  simp [Statement, encode, Instr.op, dispatch, dispatchR]
theorem xor (rd rs1 rs2 : RegIdx) (funct7 : BitVec 7) : Statement (.xor rd rs1 rs2 funct7) := by
  simp [Statement, encode, Instr.op, dispatch, dispatchR]
theorem srl (rd rs1 rs2 : RegIdx) : Statement (.srl rd rs1 rs2) := by
  simp [Statement, encode, Instr.op, dispatch, dispatchR]
theorem sra (rd rs1 rs2 : RegIdx) : Statement (.sra rd rs1 rs2) := by
  simp [Statement, encode, Instr.op, dispatch, dispatchR]
theorem or (rd rs1 rs2 : RegIdx) (funct7 : BitVec 7) : Statement (.or rd rs1 rs2 funct7) := by
  simp [Statement, encode, Instr.op, dispatch, dispatchR]
theorem and (rd rs1 rs2 : RegIdx) (funct7 : BitVec 7) : Statement (.and rd rs1 rs2 funct7) := by
  simp [Statement, encode, Instr.op, dispatch, dispatchR]
theorem addi (rd rs1 : RegIdx) (imm : Int) : Statement (.addi rd rs1 imm) := by
  simp [Statement, encode, formatI_eq_formatR, Instr.op, dispatch, dispatchI]
theorem slli (rd rs1 : RegIdx) (shamt : BitVec 5) (funct7 : BitVec 7) : Statement (.slli rd rs1 shamt funct7) := by
  simp [Statement, encode, Instr.op, dispatch, dispatchI]
theorem slti (rd rs1 : RegIdx) (imm : Int) : Statement (.slti rd rs1 imm) := by
  simp [Statement, encode, formatI_eq_formatR, Instr.op, dispatch, dispatchI]
theorem sltiu (rd rs1 : RegIdx) (imm : Int) : Statement (.sltiu rd rs1 imm) := by
  simp [Statement, encode, formatI_eq_formatR, Instr.op, dispatch, dispatchI]
theorem xori (rd rs1 : RegIdx) (imm : Int) : Statement (.xori rd rs1 imm) := by
  simp [Statement, encode, formatI_eq_formatR, Instr.op, dispatch, dispatchI]
theorem srli (rd rs1 : RegIdx) (shamt : BitVec 5) : Statement (.srli rd rs1 shamt) := by
  simp [Statement, encode, Instr.op, dispatch, dispatchI]
theorem srai (rd rs1 : RegIdx) (shamt : BitVec 5) : Statement (.srai rd rs1 shamt) := by
  simp [Statement, encode, Instr.op, dispatch, dispatchI]
theorem ori (rd rs1 : RegIdx) (imm : Int) : Statement (.ori rd rs1 imm) := by
  simp [Statement, encode, formatI_eq_formatR, Instr.op, dispatch, dispatchI]
theorem andi (rd rs1 : RegIdx) (imm : Int) : Statement (.andi rd rs1 imm) := by
  simp [Statement, encode, formatI_eq_formatR, Instr.op, dispatch, dispatchI]
theorem sb (rs1 rs2 : RegIdx) (imm : Int) : Statement (.sb rs1 rs2 imm) := by
  simp [Statement, encode, formatS_eq_formatR, Instr.op, dispatch, dispatchS]
theorem sh (rs1 rs2 : RegIdx) (imm : Int) : Statement (.sh rs1 rs2 imm) := by
  simp [Statement, encode, formatS_eq_formatR, Instr.op, dispatch, dispatchS]
theorem sw (rs1 rs2 : RegIdx) (imm : Int) : Statement (.sw rs1 rs2 imm) := by
  simp [Statement, encode, formatS_eq_formatR, Instr.op, dispatch, dispatchS]
theorem sd (rs1 rs2 : RegIdx) (imm : Int) : Statement (.sd rs1 rs2 imm) := by
  simp [Statement, encode, formatS_eq_formatR, Instr.op, dispatch, dispatchS]

end Sys2Proof.Laws.EncodedDispatch
end

