-- ==== Sys2Proof/Machine/Assembly.lean ====
section
/-! DEFINITION. The assembler's text of an instruction and the pseudo-instructions (30_encoding.md R114, R115). Text
only: nothing here is reached by a step. -/

namespace Sys2Proof.Machine

/-- A register as `xN` (R114). -/
def regText (r : RegIdx) : String := "x" ++ toString r.toNat

/-- `OP rd, rs1, rs2` (R114). -/
def rText (op : String) (rd rs1 rs2 : RegIdx) : String :=
  op ++ " " ++ regText rd ++ ", " ++ regText rs1 ++ ", " ++ regText rs2

/-- `OP rd, rs1, imm`, and `OP rd, rs1, shamt` (R114). -/
def iText (op : String) (rd rs1 : RegIdx) (n : Int) : String :=
  op ++ " " ++ regText rd ++ ", " ++ regText rs1 ++ ", " ++ toString n

/-- `OP rs2, imm(rs1)` (R114). -/
def sText (op : String) (rs1 rs2 : RegIdx) (imm : Int) : String :=
  op ++ " " ++ regText rs2 ++ ", " ++ toString imm ++ "(" ++ regText rs1 ++ ")"

/-- The assembler's text of an instruction (R114). It does not name a funct7 that dispatch does not consult. -/
def asmText : Instr → String
  | .add rd rs1 rs2 => rText "ADD" rd rs1 rs2
  | .sub rd rs1 rs2 => rText "SUB" rd rs1 rs2
  | .sll rd rs1 rs2 _ => rText "SLL" rd rs1 rs2
  | .slt rd rs1 rs2 _ => rText "SLT" rd rs1 rs2
  | .sltu rd rs1 rs2 _ => rText "SLTU" rd rs1 rs2
  | .xor rd rs1 rs2 _ => rText "XOR" rd rs1 rs2
  | .srl rd rs1 rs2 => rText "SRL" rd rs1 rs2
  | .sra rd rs1 rs2 => rText "SRA" rd rs1 rs2
  | .or rd rs1 rs2 _ => rText "OR" rd rs1 rs2
  | .and rd rs1 rs2 _ => rText "AND" rd rs1 rs2
  | .addi rd rs1 imm => iText "ADDI" rd rs1 imm
  | .slli rd rs1 shamt _ => iText "SLLI" rd rs1 shamt.toNat
  | .slti rd rs1 imm => iText "SLTI" rd rs1 imm
  | .sltiu rd rs1 imm => iText "SLTIU" rd rs1 imm
  | .xori rd rs1 imm => iText "XORI" rd rs1 imm
  | .srli rd rs1 shamt => iText "SRLI" rd rs1 shamt.toNat
  | .srai rd rs1 shamt => iText "SRAI" rd rs1 shamt.toNat
  | .ori rd rs1 imm => iText "ORI" rd rs1 imm
  | .andi rd rs1 imm => iText "ANDI" rd rs1 imm
  | .sb rs1 rs2 imm => sText "SB" rs1 rs2 imm
  | .sh rs1 rs2 imm => sText "SH" rs1 rs2 imm
  | .sw rs1 rs2 imm => sText "SW" rs1 rs2 imm
  | .sd rs1 rs2 imm => sText "SD" rs1 rs2 imm

/-- The pseudo-instructions that expand into instructions of the core (R115). -/
inductive Pseudo where
  | nop
  | mv (rd rs : RegIdx)
  | li (rd : RegIdx) (imm : Int)
  | not (rd rs : RegIdx)
  | neg (rd rs : RegIdx)
  | seqz (rd rs : RegIdx)
  | snez (rd rs : RegIdx)
  | sltz (rd rs : RegIdx)
  | sgtz (rd rs : RegIdx)
  deriving DecidableEq, Repr

/-- The expansion of a pseudo-instruction (R115); that of `li` is well-formed for -2048 .. 2047 only. -/
def Pseudo.expand : Pseudo → Instr
  | .nop => .addi 0 0 0
  | .mv rd rs => .addi rd rs 0
  | .li rd imm => .addi rd 0 imm
  | .not rd rs => .xori rd rs (-1)
  | .neg rd rs => .sub rd 0 rs
  | .seqz rd rs => .sltiu rd rs 1
  | .snez rd rs => .sltu rd 0 rs 0x00
  | .sltz rd rs => .slt rd rs 0 0x00
  | .sgtz rd rs => .slt rd 0 rs 0x00

end Sys2Proof.Machine
end

