-- ==== Sys2Proof/Tests/Slice0.lean ====
section
/-! SUPPORT. The model's own tests. Expected words and values are from spec/95_test_vectors.md (the section is named at
each group) and from the examples of the rules; nothing is pasted from the model. Then the witnesses: for each
obligation with hypotheses, a state and operands that meet them together, with each clause at a boundary of its range. -/

namespace Sys2Proof.Tests

open Sys2Proof Sys2Proof.Machine Sys2Proof.Claims

/-- The next state, where there is one. -/
def nextOf : Host.Outcome State Fault Refusal → Option State
  | .next s => some s
  | .fault _ => none
  | .refused _ => none

/-- Reset in the reference configuration, with x1 and x2 given and one word placed at `pc`. -/
def start (w : Nat) (x1 x2 : Word) : State :=
  ((State.reset.setReg 1#5 x1).setReg 2#5 x2).withFetchWord 32 w

/-- What one property of the state is after one step. -/
def stepped {α : Type} (s : State) (f : State → α) : Option α := (nextOf (step s)).map f

/-- x3 and `pc` after one step of a word. -/
def x3After (w : Nat) (x1 x2 : Word) : Option (Word × Word) := stepped (start w x1 x2) fun t => (t.reg 3#5, t.pc)

/-- Bytes of memory after one step of a word, with x2 the stored value of L2.5. -/
def bytesAfter (w : Nat) (x1 : Word) (addrs : List Nat) : Option (List Byte) :=
  stepped (start w x1 0x1122334455667788) fun t => addrs.map t.mem.byteAt

/-- The run state, reason and `pc` after one step. -/
def endOf (s : State) : Option (RunState × HaltReason × Word) := stepped s fun t => (t.run, t.haltReason, t.pc)

/-- The reference base with a small memory. -/
def tiny (size : Nat) : Config where
  memBase := 0x80000000#64
  memSize := size

/-- A memory that ends at the top of the address space (program P7). -/
def top : Config where
  memBase := 0xFFFFFFFFFFFFFFF8#64
  memSize := 8

/-- A running core with nothing in memory and slot 0 set. -/
def bare (c : Config) (pc x0 : Word) : State :=
  { State.reset with cfg := c, pc := pc }.setReg 0#5 x0

/-! ### Decoding: one word of every instruction (L2.1 to L2.5) -/

theorem test_decode_add : decode 0x002081B3#32 = .ok (.add 3 1 2) := by decide
theorem test_decode_sub : decode 0x402081B3#32 = .ok (.sub 3 1 2) := by decide
theorem test_decode_sll : decode 0x002091B3#32 = .ok (.sll 3 1 2 0x00) := by decide
theorem test_decode_slt : decode 0x0020A1B3#32 = .ok (.slt 3 1 2 0x00) := by decide
theorem test_decode_sltu : decode 0x0020B1B3#32 = .ok (.sltu 3 1 2 0x00) := by decide
theorem test_decode_xor : decode 0x0020C1B3#32 = .ok (.xor 3 1 2 0x00) := by decide
theorem test_decode_srl : decode 0x0020D1B3#32 = .ok (.srl 3 1 2) := by decide
theorem test_decode_sra : decode 0x4020D1B3#32 = .ok (.sra 3 1 2) := by decide
theorem test_decode_or : decode 0x0020E1B3#32 = .ok (.or 3 1 2 0x00) := by decide
theorem test_decode_and : decode 0x0020F1B3#32 = .ok (.and 3 1 2 0x00) := by decide
theorem test_decode_addi : decode 0xFFF08193#32 = .ok (.addi 3 1 (-1)) := by decide
theorem test_decode_slli : decode 0x01F09193#32 = .ok (.slli 3 1 31 0x00) := by decide
theorem test_decode_slti : decode 0x8000A193#32 = .ok (.slti 3 1 (-2048)) := by decide
theorem test_decode_sltiu : decode 0x7FF0B193#32 = .ok (.sltiu 3 1 2047) := by decide
theorem test_decode_xori : decode 0x00F0C193#32 = .ok (.xori 3 1 15) := by decide
theorem test_decode_srli : decode 0x01F0D193#32 = .ok (.srli 3 1 31) := by decide
theorem test_decode_srai : decode 0x4050D193#32 = .ok (.srai 3 1 5) := by decide
theorem test_decode_ori : decode 0x5550E193#32 = .ok (.ori 3 1 1365) := by decide
theorem test_decode_andi : decode 0x8000F193#32 = .ok (.andi 3 1 (-2048)) := by decide
theorem test_decode_sb : decode 0x80208023#32 = .ok (.sb 1 2 (-2048)) := by decide
theorem test_decode_sh : decode 0xFE209FA3#32 = .ok (.sh 1 2 (-1)) := by decide
theorem test_decode_sw : decode 0x0020A023#32 = .ok (.sw 1 2 0) := by decide
theorem test_decode_sd : decode 0x1020B0A3#32 = .ok (.sd 1 2 257) := by decide

/-- The encodings written out field by field (R100, R104, R106, R108), not as a hexadecimal word. -/
theorem test_decode_bits_r : decode 0b0100000_00010_00001_101_00011_0110011#32 = .ok (.sra 3 1 2) := by decide
theorem test_decode_bits_i : decode 0b111111111111_00001_000_00011_0010011#32 = .ok (.addi 3 1 (-1)) := by decide
theorem test_decode_bits_s : decode 0b0001000_00010_00001_011_00001_0100011#32 = .ok (.sd 1 2 257) := by decide

/-! ### Rejection by name (L2.2; truncated bytes) -/

theorem test_reject_zero : decode 0x00000000#32 = .error (.unrecognized 0x00 0 0x00) := by decide
theorem test_reject_ones : decode 0xFFFFFFFF#32 = .error (.unrecognized 0x7F 7 0x7F) := by decide
theorem test_reject_load : decode 0x00013083#32 = .error (.unrecognized 0x03 3 0x00) := by decide
theorem test_reject_fence : decode 0x0FF0000F#32 = .error (.unrecognized 0x0F 0 0x07) := by decide
theorem test_reject_jal : decode 0x0000006F#32 = .error (.unrecognized 0x6F 0 0x00) := by decide
theorem test_reject_mul : decode 0x023100B3#32 = .error (.unrecognized 0x33 0 0x01) := by decide
theorem test_reject_divu : decode 0x023150B3#32 = .error (.unrecognized 0x33 5 0x01) := by decide
theorem test_reject_srli32 : decode 0x0200D193#32 = .error (.unrecognized 0x13 5 0x01) := by decide
theorem test_reject_srai32 : decode 0x4200D193#32 = .error (.unrecognized 0x13 5 0x21) := by decide
theorem test_reject_store4 : decode 0x00004023#32 = .error (.unrecognized 0x23 4 0x00) := by decide
theorem test_reject_truncated : decodeBytes [0x93, 0x02, 0xA0] = .error .truncated := by decide
theorem test_decodeBytes_rest : decodeBytes [0x93, 0x02, 0xA0, 0x00, 0x13] = .ok (.addi 5 0 10, [0x13]) := by decide
theorem test_decodeTableWord : decodeTableWord 32 0x00A00293 = some (.addi 5 0 10) ∧
    decodeTableWord 32 0xFFFFFFFF = none := by decide

/-! ### Fields (L2.1): shamt is five bits where imm_I is more, imm_S, imm_U and the extremes of imm_B and imm_J -/

theorem test_fields_srai : shamtOf 0x4050D193#32 = 5 ∧ immIOf 0x4050D193#32 = 0x405 := by decide
theorem test_immS : immSOf 0xFE000FA3#32 = -1 ∧ immSOf 0x00112423#32 = 8 := by decide
theorem test_immU : immUOf 0xABCDE0B7#32 = 0xFFFFFFFFABCDE000 ∧ immUOf 0x12345037#32 = 0x12345000 := by decide
theorem test_immB : immBOf 0x80000063#32 = -4096 ∧ immBOf 0x7E000FE3#32 = 4094 := by decide
theorem test_immJ : immJOf 0x80000000#32 = -1048576 ∧ immJOf 0x7FFFFFFF#32 = 1048574 := by decide

/-! ### Well-formedness: every check refuses an ill-formed term -/

theorem test_wf_addi : (Instr.addi 1 2 2048).wellFormed = false ∧ (Instr.addi 1 2 (-2049)).wellFormed = false ∧
    (Instr.addi 1 2 2047).wellFormed = true ∧ (Instr.addi 1 2 (-2048)).wellFormed = true := by decide
theorem test_wf_slti : (Instr.slti 1 2 2048).wellFormed = false ∧ (Instr.slti 1 2 (-2049)).wellFormed = false ∧
    (Instr.slti 1 2 2047).wellFormed = true ∧ (Instr.slti 1 2 (-2048)).wellFormed = true := by decide
theorem test_wf_sltiu : (Instr.sltiu 1 2 2048).wellFormed = false ∧ (Instr.sltiu 1 2 (-2049)).wellFormed = false ∧
    (Instr.sltiu 1 2 2047).wellFormed = true ∧ (Instr.sltiu 1 2 (-2048)).wellFormed = true := by decide
theorem test_wf_xori : (Instr.xori 1 2 2048).wellFormed = false ∧ (Instr.xori 1 2 (-2049)).wellFormed = false ∧
    (Instr.xori 1 2 2047).wellFormed = true ∧ (Instr.xori 1 2 (-2048)).wellFormed = true := by decide
theorem test_wf_ori : (Instr.ori 1 2 2048).wellFormed = false ∧ (Instr.ori 1 2 (-2049)).wellFormed = false ∧
    (Instr.ori 1 2 2047).wellFormed = true ∧ (Instr.ori 1 2 (-2048)).wellFormed = true := by decide
theorem test_wf_andi : (Instr.andi 1 2 2048).wellFormed = false ∧ (Instr.andi 1 2 (-2049)).wellFormed = false ∧
    (Instr.andi 1 2 2047).wellFormed = true ∧ (Instr.andi 1 2 (-2048)).wellFormed = true := by decide
theorem test_wf_sb : (Instr.sb 1 2 2048).wellFormed = false ∧ (Instr.sb 1 2 (-2049)).wellFormed = false ∧
    (Instr.sb 1 2 2047).wellFormed = true ∧ (Instr.sb 1 2 (-2048)).wellFormed = true := by decide
theorem test_wf_sh : (Instr.sh 1 2 2048).wellFormed = false ∧ (Instr.sh 1 2 (-2049)).wellFormed = false ∧
    (Instr.sh 1 2 2047).wellFormed = true ∧ (Instr.sh 1 2 (-2048)).wellFormed = true := by decide
theorem test_wf_sw : (Instr.sw 1 2 2048).wellFormed = false ∧ (Instr.sw 1 2 (-2049)).wellFormed = false ∧
    (Instr.sw 1 2 2047).wellFormed = true ∧ (Instr.sw 1 2 (-2048)).wellFormed = true := by decide
theorem test_wf_sd : (Instr.sd 1 2 2048).wellFormed = false ∧ (Instr.sd 1 2 (-2049)).wellFormed = false ∧
    (Instr.sd 1 2 2047).wellFormed = true ∧ (Instr.sd 1 2 (-2048)).wellFormed = true := by decide

/-! ### R-type (L2.3) -/

theorem test_add_1 : x3After 0x002081B3 0x7FFFFFFFFFFFFFFF 0x1 = some (0x8000000000000000, 0x80000004) := by decide
theorem test_add_2 : x3After 0x002081B3 0xFFFFFFFFFFFFFFFF 0x1 = some (0x0, 0x80000004) := by decide
theorem test_sub_1 : x3After 0x402081B3 0x0 0x1 = some (0xFFFFFFFFFFFFFFFF, 0x80000004) := by decide
theorem test_sub_2 : x3After 0x402081B3 0x3 0x5 = some (0xFFFFFFFFFFFFFFFE, 0x80000004) := by decide
theorem test_sll_1 : x3After 0x002091B3 0x1 0x40 = some (0x1, 0x80000004) := by decide
theorem test_sll_2 : x3After 0x002091B3 0x1 0xFFFFFFFFFFFFFFFF = some (0x8000000000000000, 0x80000004) := by decide
theorem test_slt_1 : x3After 0x0020A1B3 0xFFFFFFFFFFFFFFFF 0x1 = some (0x1, 0x80000004) := by decide
theorem test_slt_2 : x3After 0x0020A1B3 0x8000000000000000 0x7FFFFFFFFFFFFFFF = some (0x1, 0x80000004) := by decide
theorem test_sltu_1 : x3After 0x0020B1B3 0xFFFFFFFFFFFFFFFF 0x1 = some (0x0, 0x80000004) := by decide
theorem test_sltu_2 : x3After 0x0020B1B3 0x0 0xFFFFFFFFFFFFFFFF = some (0x1, 0x80000004) := by decide
theorem test_xor_1 : x3After 0x0020C1B3 0xF0F0 0xFF00 = some (0xFF0, 0x80000004) := by decide
theorem test_xor_2 : x3After 0x0020C1B3 0xFFFFFFFFFFFFFFFF 0x5555555555555555 = some (0xAAAAAAAAAAAAAAAA, 0x80000004) := by decide
theorem test_srl_1 : x3After 0x0020D1B3 0x8000000000000000 0x3F = some (0x1, 0x80000004) := by decide
theorem test_srl_2 : x3After 0x0020D1B3 0x8000000000000000 0x7F = some (0x1, 0x80000004) := by decide
theorem test_sra_1 : x3After 0x4020D1B3 0x8000000000000000 0x3F = some (0xFFFFFFFFFFFFFFFF, 0x80000004) := by decide
theorem test_sra_2 : x3After 0x4020D1B3 0x1234 0x44 = some (0x123, 0x80000004) := by decide
theorem test_or_1 : x3After 0x0020E1B3 0xF0 0xF = some (0xFF, 0x80000004) := by decide
theorem test_or_2 : x3After 0x0020E1B3 0x0 0x0 = some (0x0, 0x80000004) := by decide
theorem test_and_1 : x3After 0x0020F1B3 0xFF00FF 0xFF0F0 = some (0xF00F0, 0x80000004) := by decide
theorem test_and_2 : x3After 0x0020F1B3 0xFFFFFFFFFFFFFFFF 0x0 = some (0x0, 0x80000004) := by decide

/-! ### I-type (L2.4) -/

theorem test_addi_1 : x3After 0x80008193 0x0 0 = some (0xFFFFFFFFFFFFF800, 0x80000004) := by decide
theorem test_addi_2 : x3After 0xFFA08193 0x5 0 = some (0xFFFFFFFFFFFFFFFF, 0x80000004) := by decide
theorem test_slli_1 : x3After 0x00409193 0xFFFFFFFF 0 = some (0xFFFFFFFF0, 0x80000004) := by decide
theorem test_slli_2 : x3After 0x01F09193 0x3 0 = some (0x180000000, 0x80000004) := by decide
theorem test_slti_1 : x3After 0x8000A193 0xFFFFFFFFFFFFF7FF 0 = some (0x1, 0x80000004) := by decide
theorem test_slti_2 : x3After 0x8000A193 0x8000000000000000 0 = some (0x1, 0x80000004) := by decide
theorem test_sltiu_1 : x3After 0xFFF0B193 0x5 0 = some (0x1, 0x80000004) := by decide
theorem test_sltiu_2 : x3After 0x7FF0B193 0x800 0 = some (0x0, 0x80000004) := by decide
theorem test_xori_1 : x3After 0xFFF0C193 0x1234 0 = some (0xFFFFFFFFFFFFEDCB, 0x80000004) := by decide
theorem test_xori_2 : x3After 0x8000C193 0xFFFFFFFFFFFFFFFF 0 = some (0x7FF, 0x80000004) := by decide
theorem test_srli_1 : x3After 0x01F0D193 0x8000000000000000 0 = some (0x100000000, 0x80000004) := by decide
theorem test_srli_2 : x3After 0x0040D193 0xFFFFFFFFFFFFFFFF 0 = some (0xFFFFFFFFFFFFFFF, 0x80000004) := by decide
theorem test_srai_1 : x3After 0x41F0D193 0x8000000000000000 0 = some (0xFFFFFFFF00000000, 0x80000004) := by decide
theorem test_srai_2 : x3After 0x4010D193 0xFFFFFFFFFFFFFFF8 0 = some (0xFFFFFFFFFFFFFFFC, 0x80000004) := by decide
theorem test_ori_1 : x3After 0x8000E193 0x10 0 = some (0xFFFFFFFFFFFFF810, 0x80000004) := by decide
theorem test_ori_2 : x3After 0x5550E193 0x0 0 = some (0x555, 0x80000004) := by decide
theorem test_andi_1 : x3After 0x7FF0F193 0xFFFFFFFFFFFFFFFF 0 = some (0x7FF, 0x80000004) := by decide
theorem test_andi_2 : x3After 0x8000F193 0x123456789 0 = some (0x123456000, 0x80000004) := by decide

/-! ### Standard words that run as base operations (R111; L2.4's SLLI with bit 25 set) -/

theorem test_slli_bit25 : x3After 0x02009193 7 0 = some (7, 0x80000004) := by decide
theorem test_div_runs_as_xor : x3After 0x0220C1B3 0xF0F0 0xFF00 = some (0x0FF0, 0x80000004) := by decide

/-! ### Stores (L2.5) -/

theorem test_sb_last_byte : bytesAfter 0xFE208FA3 0x80100000 [0x800FFFFE, 0x800FFFFF] = some [0x00, 0x88] := by decide
theorem test_sb_below_base : endOf (start 0xFE208FA3 0x80000000 0) =
    some (.halted, .outOfBounds .store 0x7FFFFFFF .w8, 0x80000004) := by decide
theorem test_sh : bytesAfter 0x00209023 0x80000101 [0x80000100, 0x80000101, 0x80000102, 0x80000103] =
    some [0x00, 0x88, 0x77, 0x00] := by decide
theorem test_sh_straddles_the_end : endOf (start 0xFE209FA3 0x80100000 0x1122334455667788) =
    some (.halted, .outOfBounds .store 0x800FFFFF .w16, 0x80000004) ∧
    bytesAfter 0xFE209FA3 0x80100000 [0x800FFFFF] = some [0x00] := by decide
theorem test_sw_negative_displacement : bytesAfter 0xFE20AE23 0x80000200 [0x800001FC, 0x800001FD, 0x800001FE, 0x800001FF] =
    some [0x88, 0x77, 0x66, 0x55] := by decide
theorem test_sw_over_itself : bytesAfter 0x0020A023 0x80000000 [0x80000000, 0x80000003, 0x80000004] =
    some [0x88, 0x55, 0x00] := by decide
theorem test_sd_misaligned : bytesAfter 0x1020B0A3 0x80000000 [0x80000100, 0x80000101, 0x80000102, 0x80000107, 0x80000108, 0x80000109] =
    some [0x00, 0x88, 0x77, 0x22, 0x11, 0x00] := by decide
theorem test_sd_one_past_the_last : endOf (start 0xFE20BCA3 0x80100000 0x1122334455667788) =
    some (.halted, .outOfBounds .store 0x800FFFF9 .w64, 0x80000004) := by decide
theorem test_mixed_width_reads : stepped (start 0x0020B023 0x80000000 0x1122334455667788)
      (fun t => [(0x80000000, Width.w8), (0x80000001, .w32), (0x80000003, .w16), (0x80000004, .w32)].map
        fun p => memRead t.cfg t.mem .fetch p.1 p.2) =
    some [.ok 0x88, .ok 0x44556677, .ok 0x4455, .ok 0x11223344] := by decide

/-! ### The step, fetch and halts (L2.6, L1.4, L1.9) -/

theorem test_sentinel : endOf (bare (tiny 16) 0 9) = some (.halted, .sentinelPc, 0) := by decide
theorem test_fetch_past_the_end : endOf (bare (tiny 16) 0x80000010 9) =
    some (.halted, .outOfBounds .fetch 0x80000010 .w32, 0x80000010) ∧
    stepped (bare (tiny 16) 0x80000010 9) (fun t => t.reg 0#5) = some 9 := by decide
theorem test_fetch_straddles_the_end : endOf (bare (tiny 18) 0x80000010 0) =
    some (.halted, .outOfBounds .fetch 0x80000010 .w32, 0x80000010) := by decide
theorem test_unrecognized : endOf (bare (tiny 16) 0x80000000 5) =
    some (.halted, .unrecognizedInstruction 0x00 0 0x00, 0x80000004) ∧
    stepped (bare (tiny 16) 0x80000000 5) (fun t => t.reg 0#5) = some 0 := by decide
theorem test_all_ones_word : endOf (start 0xFFFFFFFF 0x11 0x22) =
    some (.halted, .unrecognizedInstruction 0x7F 7 0x7F, 0x80000004) ∧
    stepped (start 0xFFFFFFFF 0x11 0x22) (fun t => (t.reg 1#5, t.reg 2#5)) = some (0x11, 0x22) := by decide
theorem test_slot0_holds_its_write : stepped (start 0x00500013 0 0) (fun t => (t.reg 0#5, t.pc)) =
    some (5, 0x80000004) := by decide
theorem test_slot0_reads_zero : stepped ((bare (tiny 16) 0x80000000 5).withFetchWord 32 0x00000233)
    (fun t => (t.reg 4#5, t.reg 0#5)) = some (0, 0) := by decide
theorem test_rd_is_rs : stepped ((State.reset.setReg 5#5 21).withFetchWord 32 0x005282B3) (fun t => t.reg 5#5) =
    some 42 := by decide
theorem test_pc_wraps : stepped ((bare top 0xFFFFFFFFFFFFFFFC 0).withFetchWord 32 0x00400113)
    (fun t => (t.reg 2#5, t.pc)) = some (4, 0) := by decide
theorem test_unaligned_base : stepped ((bare { memBase := 0x80000002, memSize := 16 } 0x80000002 0).withFetchWord 32 0x00A00293)
    (fun t => (t.reg 5#5, t.pc)) = some (10, 0x80000006) := by decide
theorem test_reset_runs_nothing : endOf State.reset =
    some (.halted, .unrecognizedInstruction 0x00 0 0x00, 0x80000004) := by decide
theorem test_placed_word_bytes : (start 0x00A00293 0 0).mem =
    [(0x80000000, 0x93), (0x80000001, 0x02), (0x80000002, 0xA0)] := by decide

/-! ### Boot, causes and the host (R221, R250 to R258) -/

theorem test_boot : (nextOf (boot (tiny 8) (some [0x93, 0x02, 0xA0, 0x00]) (Vector.replicate 32 7) fun _ => 0xAA)).map
      (fun s => (s.pc, s.reg 0#5, s.reg 31#5, s.mem)) =
    some (0x80000000, 0, 7, [(0x80000000, 0x93), (0x80000001, 0x02), (0x80000002, 0xA0), (0x80000004, 0xAA),
      (0x80000005, 0xAA), (0x80000006, 0xAA), (0x80000007, 0xAA)]) := by decide
theorem test_boot_unreadable : boot (tiny 8) none (Vector.replicate 32 0) (fun _ => 0) = .refused .imageLoadFailure := rfl
theorem test_boot_invalid_configuration :
    boot { memBase := 0xFFFFFFFFFFFFFFF8, memSize := 9 } none (Vector.replicate 32 0) (fun _ => 0) =
      .fault .invalidConfiguration := rfl
theorem test_cause_codes : [HaltCause.sentinelPc, .unrecognizedInstruction, .outOfBounds, .imageLoadFailure].map
    HaltCause.code = [0, 1, 2, 3] := by decide
theorem test_sentinel_is_no_error : (bare (tiny 8) 0 0).failed = false ∧
    stepped (bare (tiny 8) 0 0) State.failed = some false ∧
    stepped (bare (tiny 8) 0x80000000 0) State.failed = some true := by decide
theorem test_abi_names : abiNames.length = 32 ∧ abiNames[8]? = some "s0" ∧ abiNames[18]? = some "s2" ∧
    abiNames[31]? = some "t6" := by decide
theorem test_asm_text : asmText (.add 7 5 6) = "ADD x7, x5, x6" ∧ asmText (.addi 5 0 10) = "ADDI x5, x0, 10" ∧
    asmText (.sw 1 2 (-4)) = "SW x2, -4(x1)" := by decide
theorem test_nop_word : encode Pseudo.nop.expand = 0x00000013#32 := by decide
theorem test_command_line : commandLine ["image.bin"] = .start "image.bin" ∧ commandLine [] = .usage usageStatus ∧
    commandLine ["a", "b"] = .usage usageStatus := ⟨rfl, rfl, rfl⟩
theorem test_usage_status : usageStatus ≠ 0 := by
  unfold usageStatus
  split
  · decide
  · assumption
theorem test_dump : (hostRun 3 (start 0x002081B3 5 3)).1.map (fun d => (d[0]?, d[3]?)) =
    [(some ("zero", 0), some ("gp", 8))] := by decide
theorem test_report : (bare (tiny 8) 0x80000000 0).report = none ∧
    stepped (bare (tiny 8) 0x80000000 0) State.report = some (some (.unrecognizedInstruction 0x00 0 0x00)) := by decide

/-! ### Witnesses: the hypotheses of the obligations can be met -/

theorem witness_OtherFunct7Unrecognized :
    (opcodeOf 0x022081B3#32 = 0x33#7 ∧ funct3Of 0x022081B3#32 = 0#3 ∧ funct7Of 0x022081B3#32 = 0x01#7) ∧
    (opcodeOf 0x0220D1B3#32 = 0x33#7 ∧ funct3Of 0x0220D1B3#32 = 5#3 ∧ funct7Of 0x0220D1B3#32 = 0x01#7) ∧
    (opcodeOf 0x4200D193#32 = 0x13#7 ∧ funct3Of 0x4200D193#32 = 5#3 ∧ funct7Of 0x4200D193#32 = 0x21#7) := by decide

theorem witness_SltiComparesSignedWithImmediate :
    (Instr.slti 3 1 (-2048)).wellFormed = true ∧ (Instr.slti 3 1 2047).wellFormed = true := by decide

/-- A state whose x1 is the address of the last byte of memory. -/
def atLastByte : State := State.reset.setReg 1#5 0x800FFFFF

theorem witness_SbStoresOneByte :
    offset atLastByte.cfg (effectiveAddress atLastByte 1 0) + 1 ≤ atLastByte.cfg.memSize ∧
    ¬ offset atLastByte.cfg (effectiveAddress atLastByte 1 1) + 1 ≤ atLastByte.cfg.memSize := by decide
theorem witness_ShStoresTwoBytes :
    offset atLastByte.cfg (effectiveAddress atLastByte 1 (-1)) + 2 ≤ atLastByte.cfg.memSize ∧
    ¬ offset atLastByte.cfg (effectiveAddress atLastByte 1 0) + 2 ≤ atLastByte.cfg.memSize := by decide
theorem witness_SwStoresFourBytes :
    offset atLastByte.cfg (effectiveAddress atLastByte 1 (-3)) + 4 ≤ atLastByte.cfg.memSize ∧
    ¬ offset atLastByte.cfg (effectiveAddress atLastByte 1 (-2)) + 4 ≤ atLastByte.cfg.memSize := by decide
theorem witness_SdStoresEightBytes :
    offset atLastByte.cfg (effectiveAddress atLastByte 1 (-7)) + 8 ≤ atLastByte.cfg.memSize ∧
    (∃ t, exec (.sd 1 2 (-7)) atLastByte = .next t) ∧
    ¬ offset atLastByte.cfg (effectiveAddress atLastByte 1 (-6)) + 8 ≤ atLastByte.cfg.memSize :=
  ⟨by decide, ⟨_, rfl⟩, by decide⟩

theorem witness_DecodeOfEncodeIsTheInstruction :
    (Instr.sd 31 31 (-2048)).wellFormed = true ∧ (Instr.addi 31 31 2047).wellFormed = true ∧
    (Instr.sll 31 0 31 0x7F).wellFormed = true := by decide
theorem witness_EncodeOfDecodeIsTheWord : decode 0xFE20C1B3#32 = .ok (.xor 3 1 2 0x7F) := by decide
theorem witness_DispatchIsTheTableOfR109 : dispatch 0x23 3 0x7F = some .sd ∧ dispatch 0x23 4 0x00 = none ∧
    dispatch 0x33 5 0x01 = none ∧ dispatch 0x13 5 0x21 = none ∧ dispatch 0x13 1 0x7F = some .slli := by decide

theorem witness_HaltedCoreIsFrozen : (State.reset.halt .sentinelPc).run = .halted := by decide
theorem witness_ZeroPcHaltsWithoutFetching : (bare (tiny 16) 0 9).run = .running ∧ (bare (tiny 16) 0 9).pc = 0#64 := by
  decide
theorem witness_FetchReadsFourBytesOrHalts :
    ((bare (tiny 16) 0x8000000C 0).run = .running ∧ (bare (tiny 16) 0x8000000C 0).pc ≠ 0#64 ∧
      offset (tiny 16) 0x8000000C + 4 ≤ (tiny 16).memSize) ∧
    ((bare (tiny 16) 0x8000000D 0).run = .running ∧ (bare (tiny 16) 0x8000000D 0).pc ≠ 0#64 ∧
      ¬ offset (tiny 16) 0x8000000D + 4 ≤ (tiny 16).memSize) := by decide

/-- A core about to fetch a word. -/
theorem fetches_start (w : Nat) (x1 x2 : Word) (h : w < 2 ^ 32) : Fetches (start w x1 x2) (BitVec.ofNat 32 w) := by
  have hp : (0x80000000 : Word) ≠ 0#64 := by decide
  have hb : inBounds Config.reference 0x80000000 4 = true := by decide
  refine ⟨rfl, hp, ?_⟩
  have e := State.fetch_placeWord ((State.reset.setReg 1#5 x1).setReg 2#5 x2) (BitVec.ofNat 32 w) hb
  rw [start, State.withFetchWord, Nat.mod_eq_of_lt h]
  exact e

theorem witness_UnrecognizedWordHaltsWithItsTriple : Fetches (start 0x00004023 0 0) 0x00004023#32 ∧
    dispatch (opcodeOf 0x00004023#32) (funct3Of 0x00004023#32) (funct7Of 0x00004023#32) = none :=
  ⟨fetches_start _ _ _ (by decide), by decide⟩
theorem witness_StepRunsTheDecodedInstruction :
    (start 0xFE20AFA3 0x80000010 0).run = .running ∧ (start 0xFE20AFA3 0x80000010 0).pc ≠ 0#64 ∧
    offset (start 0xFE20AFA3 0x80000010 0).cfg (start 0xFE20AFA3 0x80000010 0).pc + 4 ≤
      (start 0xFE20AFA3 0x80000010 0).cfg.memSize ∧
    decodeBytes ([0x80000000, 0x80000001, 0x80000002, 0x80000003].map (start 0xFE20AFA3 0x80000010 0).mem.byteAt) =
      .ok (.sw 1 2 (-1), []) := by decide

/-- One halting step of each cause. -/
theorem witness_HaltLeavesTheStateOfItsCause :
    (∃ t, step (bare (tiny 16) 0 9) = .next t ∧ t.run = .halted ∧ t.haltReason = .sentinelPc) ∧
    (∃ t, step (bare (tiny 16) 0x8000000D 9) = .next t ∧ t.run = .halted ∧
      t.haltReason = .outOfBounds .fetch 0x8000000D .w32) ∧
    (∃ t, step (start 0 0 0) = .next t ∧ t.run = .halted ∧ t.haltReason = .unrecognizedInstruction 0 0 0) ∧
    (∃ t, step (start 0xFE208FA3 0x80000000 0) = .next t ∧ t.run = .halted ∧
      t.haltReason = .outOfBounds .store 0x7FFFFFFF .w8) :=
  ⟨⟨_, rfl, by decide, by decide⟩, ⟨_, rfl, by decide, by decide⟩, ⟨_, rfl, by decide, by decide⟩,
    ⟨_, rfl, by decide, by decide⟩⟩
/-- The four starts of the witness above are Running with no reason recorded; the store of the last one decodes. -/
theorem witness_HaltCauseIsTheFirstReached :
    ((bare (tiny 16) 0 9).run = .running ∧ (bare (tiny 16) 0 9).haltReason = .none) ∧
    ((bare (tiny 16) 0x8000000D 9).run = .running ∧ (bare (tiny 16) 0x8000000D 9).haltReason = .none) ∧
    ((start 0 0 0).run = .running ∧ (start 0 0 0).haltReason = .none) ∧
    ((start 0xFE208FA3 0x80000000 0).run = .running ∧ (start 0xFE208FA3 0x80000000 0).haltReason = .none) ∧
    decode 0xFE208FA3#32 = .ok (.sb 1 2 (-1)) := by decide
/-- A step that writes a slot, one that stores, and the first and last byte of a store that a step changes. -/
theorem witness_StepChangesOnlyWhatItsInstructionNames :
    (∃ t, step (start 0x002081B3 5 3) = .next t ∧ t.reg 3#5 ≠ (start 0x002081B3 5 3).reg 3#5 ∧
      storeForm (.add 3 1 2) = none) ∧
    (∃ t, step (start 0xFE20BC23 0x80100000 0x1122334455667788) = .next t ∧
      Fetches (start 0xFE20BC23 0x80100000 0x1122334455667788) 0xFE20BC23#32 ∧
      decode 0xFE20BC23#32 = .ok (.sd 1 2 (-8)) ∧
      storeForm (.sd 1 2 (-8)) = some { base := 1, data := 2, imm := -8, width := .w64 } ∧
      t.mem.byteAt 0x800FFFF8 ≠ (start 0xFE20BC23 0x80100000 0x1122334455667788).mem.byteAt 0x800FFFF8 ∧
      t.mem.byteAt 0x800FFFFF ≠ (start 0xFE20BC23 0x80100000 0x1122334455667788).mem.byteAt 0x800FFFFF) :=
  ⟨⟨_, rfl, by decide, rfl⟩, ⟨_, rfl, fetches_start _ _ _ (by decide), by decide, rfl, by decide, by decide⟩⟩
theorem witness_SlotZeroContentIsNeverRead : Fetches (start 0x00000233 0 0) 0x00000233#32 :=
  fetches_start _ _ _ (by decide)
theorem witness_SlotZeroHoldsTheLastWriteSinceItsClear :
    (∃ t, step (bare (tiny 16) 0 9) = .next t) ∧
    (∃ t, step (bare (tiny 16) 0x8000000D 9) = .next t ∧
      ¬ offset (tiny 16) 0x8000000D + 4 ≤ (tiny 16).memSize) ∧
    (Fetches (start 0 0 0) 0#32 ∧ ∀ i, decode 0#32 = .ok i → i.dest ≠ some 0#5) ∧
    (Fetches (start 0x00500013 0 0) 0x00500013#32 ∧ decode 0x00500013#32 = .ok (.addi 0 0 5) ∧
      (Instr.addi 0 0 5).dest = some 0#5) :=
  ⟨⟨_, rfl⟩, ⟨_, rfl, by decide⟩,
    ⟨fetches_start _ _ _ (by decide), fun i h => by
      have e : decode 0#32 = .error (.unrecognized 0 0 0) := by decide
      rw [e] at h
      cases h⟩,
    ⟨fetches_start _ _ _ (by decide), by decide, by decide⟩⟩

/-- A core of eight bytes started on `ADDI x5, x0, 10`. -/
def booted : Host.Outcome State Fault Refusal :=
  boot (tiny 8) (some [0x93, 0x02, 0xA0, 0x00]) (Vector.replicate 32 7) fun _ => 0xAA

theorem witness_RunningCoreIsAtPcPlusFourK :
    ∃ s t, booted = .next s ∧ Host.Core.run Sys2Proof.core 1 s = .next t ∧ t.run = .running :=
  ⟨_, _, rfl, rfl, by decide⟩
theorem witness_EveryRunHaltsWithinMemory : State.reset.cfg.valid ∧ (bare top 0xFFFFFFFFFFFFFFF8 0).cfg.valid ∧
    ({ memBase := 0, memSize := 2 ^ 64 } : Config).valid ∧ ({ memBase := -1, memSize := 1 } : Config).valid := by decide
theorem witness_StepKeepsTheInvariant :
    (start 0x00208023 0x80000000 0x88).Inv ∧ ∃ t, step (start 0x00208023 0x80000000 0x88) = .next t :=
  ⟨⟨by decide, by decide, by decide, by decide, by decide, by decide⟩, ⟨_, rfl⟩⟩
theorem witness_EveryBootMeetsTheInvariant : ∃ s, booted = .next s := ⟨_, rfl⟩
theorem witness_BootGivesTheResetValues : (tiny 4).valid ∧ ([0x93, 0x02, 0xA0, 0x00] : List Byte).length ≤ (tiny 4).memSize ∧
    ([] : List Byte).length ≤ (tiny 4).memSize := by decide
theorem witness_UnloadableImageStartsNoCore : (tiny 3).valid ∧
    (tiny 3).memSize < ([0x93, 0x02, 0xA0, 0x00] : List Byte).length := by decide

/-- The first and the last place of each width, and the places just outside. -/
theorem witness_LoadPrimitiveReadsLittleEndian : ∀ w : Fin 4,
    (fun w : Width => offset (tiny 8) 0x80000000 + w.bytes ≤ 8 ∧
      offset (tiny 8) (0x80000008 - BitVec.ofNat 64 w.bytes) + w.bytes ≤ 8 ∧
      ¬ offset (tiny 8) (0x80000009 - BitVec.ofNat 64 w.bytes) + w.bytes ≤ 8 ∧
      ¬ offset (tiny 8) 0x7FFFFFFF + w.bytes ≤ 8) ([Width.w8, .w16, .w32, .w64][w]) := by decide
theorem witness_StorePrimitiveWritesLittleEndianOrNothing : ∀ w : Fin 4,
    (fun w : Width => offset (tiny 8) (0x80000008 - BitVec.ofNat 64 w.bytes) + w.bytes ≤ 8 ∧
      ¬ offset (tiny 8) (0x80000009 - BitVec.ofNat 64 w.bytes) + w.bytes ≤ 8) ([Width.w8, .w16, .w32, .w64][w]) := by
  decide
/-- A store, and in-bounds loads after it: R68's at `A + 4`, one that overlaps its last byte only, and one beside it. -/
theorem witness_LoadAfterStoreSeesTheBytesItOverlaps :
    (tiny 16).valid ∧ (∃ m', memWrite (tiny 16) [] 0x80000000 .w64 0x1122334455667788 = .ok m') ∧
    offset (tiny 16) 0x80000004 + Width.w32.bytes ≤ (tiny 16).memSize ∧
    (offset (tiny 16) 0x80000007 + Width.w16.bytes ≤ (tiny 16).memSize ∧
      (0x80000007 : Word) + BitVec.ofNat 64 0 = 0x80000000 + BitVec.ofNat 64 7 ∧
      ∀ i < 8, (0x80000007 : Word) + BitVec.ofNat 64 1 ≠ 0x80000000 + BitVec.ofNat 64 i) ∧
    offset (tiny 16) 0x8000000C + Width.w32.bytes ≤ (tiny 16).memSize := ⟨by decide, ⟨_, rfl⟩, by decide, by decide, by decide⟩
theorem witness_RepeatedStoreLeavesTheSameMemory : Memory.wf [(0x80000002, 0x11#8)] ∧
    ∃ m', memWrite (tiny 8) [(0x80000002, 0x11#8)] 0x80000000 .w32 0x00660088 = .ok m' := ⟨by decide, ⟨_, rfl⟩⟩
theorem witness_CanonicalMemoryIsItsBytes : Memory.wf [] ∧ Memory.wf [(0x80000000, 0x93#8), (0x80000002, 0xA0#8)] ∧
    ¬ Memory.wf [(0x80000002, 0xA0#8), (0x80000000, 0x93#8)] ∧ ¬ Memory.wf [(0x80000000, 0x00#8)] := by decide
theorem witness_BoundsCheckIsTheMappedRange : (tiny 8).valid ∧ top.valid ∧
    inBounds (tiny 8) 0x80000006 2 = true ∧ inBounds (tiny 8) 0x80000007 2 = false ∧
    inBounds top 0xFFFFFFFFFFFFFFFF 1 = true ∧ inBounds top 0xFFFFFFFFFFFFFFFF 2 = false := by decide
theorem witness_StoredWordIsFetchedAtOnce :
    ∃ t u : State, offset (start 0 0x80000004 0x00700293).cfg (effectiveAddress (start 0 0x80000004 0x00700293) 1 0) + 4 ≤
        (start 0 0x80000004 0x00700293).cfg.memSize ∧
      exec (.sw 1 2 0) (start 0 0x80000004 0x00700293) = .next t ∧ u.mem = t.mem ∧ u.cfg = t.cfg ∧
      u.pc = effectiveAddress (start 0 0x80000004 0x00700293) 1 0 :=
  ⟨_, { start 0 0x80000004 0x00700293 with
      mem := (start 0 0x80000004 0x00700293).mem.writeLE 0x80000004 4 0x00700293, pc := 0x80000004 },
    by decide, rfl, by decide, by decide, by decide⟩
/-- A run whose first step completes and whose second halts: one dump, that of the state after the first step. -/
theorem witness_HostLoopRunsAndDumpsEachCompletedStep :
    (hostRun 1 (start 0x002081B3 5 3)).2.run = .running ∧
    completedSteps 3 (start 0x002081B3 5 3) = 1 ∧
    (∃ u, Host.Core.run Sys2Proof.core 1 (start 0x002081B3 5 3) = .next u ∧ u.run = .running) ∧
    (∃ u, Host.Core.run Sys2Proof.core 2 (start 0x002081B3 5 3) = .next u ∧ u.run = .halted) ∧
    ∃ t, step (start 0 0 0) = .next t ∧ (start 0 0 0).run = .running ∧ t.run = .halted :=
  ⟨by decide, by decide, ⟨_, rfl, by decide⟩, ⟨_, rfl, by decide⟩, ⟨_, rfl, by decide, by decide⟩⟩

end Sys2Proof.Tests
end

section
/-! The composition of the seven blocks is the step (00_scope.md R5, R6): one lemma per block that ties it to the
operation of the model it stands for, phase 5 over the blocks, then the step. -/

namespace Sys2Proof

/-- A word that decodes dispatches to an operation, and the instruction is that operation with the word's fields. -/
theorem dispatch_of_decode_ok {w : InstWord} {i : Instr} (h : decode w = .ok i) :
    ∃ op, dispatch (opcodeOf w) (funct3Of w) (funct7Of w) = some op ∧ i = assemble (fieldsOf w) op := by
  unfold decode at h
  split at h
  · next op hop => exact ⟨op, hop, by cases h; rfl⟩
  · cases h

theorem dispatch_of_decode_error {w : InstWord} {e : DecodeError} (h : decode w = .error e) :
    dispatch (opcodeOf w) (funct3Of w) (funct7Of w) = none := by
  unfold decode at h
  split at h
  · cases h
  · assumption

end Sys2Proof

namespace Sys2Proof.Machine

/-- The integer of a 64-bit immediate, turned into its word again (R180). -/
@[simp] theorem immWord_toInt (w : Word) : immWord w.toInt = w := BitVec.ofInt_toInt

/-- The six bits of an R-type shift amount (R163) are what the mask of `alu_dispatch` keeps. -/
theorem regShiftAmount_eq_and (b : Word) : regShiftAmount b = (b &&& 0x3f#64).toNat := by
  simp [regShiftAmount, Nat.and_two_pow_sub_one_eq_mod _ 6]

end Sys2Proof.Machine

namespace Sys2Proof.Machine.Blocks

/-! ### The blocks and the operations they stand for -/

theorem fetchUnit_eq_fetch (s : State) : fetchUnit s.cfg s.mem s.pc = s.fetch := by
  unfold fetchUnit lsuLoad State.fetch
  cases memRead s.cfg s.mem .fetch s.pc .w32 with
  | error r => rfl
  | ok v => simp [BitVec.setWidth_eq_extractLsb']

/-- Phases 2 and 3 over `program_counter` and `register_file` (R133, R134). -/
theorem afterFetch_eq_blocks (s : State) :
    s.afterFetch =
      { s with pc := programCounter s.pc true (s.pc + 4#64), x := registerFile s.x true false 0#5 0#64 } := rfl

/-! ### Phase 5 -/

variable (f : Fields) (s : State)

/-- An R-type or I-type operation writes back the result of `alu_dispatch`. -/
theorem exec_assemble_of_alu {op : Op} (h : storeWidth op = none) :
    exec (assemble f op) s = writeBack f.rd (aluDispatch op (s.reg f.rs1) (s.reg f.rs2) f.immI f.shamt) s := by
  conv_rhs => rw [← immWord_toInt f.immI]
  cases op with
  | add | sub | slt | sltu | xor | or | and => rfl
  | addi | slti | sltiu | xori | ori | andi => rfl
  | slli | srli | srai => rfl
  | sll => simp [assemble, exec, execSll, aluDispatch, regShiftAmount_eq_and]
  | srl => simp [assemble, exec, execSrl, aluDispatch, regShiftAmount_eq_and]
  | sra => simp [assemble, exec, execSra, aluDispatch, regShiftAmount_eq_and]
  | sb | sh | sw | sd => cases h

/-- A store writes its slot at the sum that the datapath forms, in the width that its operation selects. -/
theorem exec_assemble_of_store {op : Op} {w : Width} (h : storeWidth op = some w) :
    exec (assemble f op) s = store (s.reg f.rs1 + f.immS) w (s.reg f.rs2) s := by
  have address : effectiveAddress s f.rs1 f.immS.toInt = s.reg f.rs1 + f.immS := by simp [effectiveAddress]
  cases op with
  | sb | sh | sw | sd => cases h; rw [← address]; rfl
  | _ => cases h

/-- Phase 5 over the blocks is the selected instruction on the word's fields (R136). -/
theorem exec_assemble_eq_executePhase (op : Op) : exec (assemble f op) s = .next (executePhase f op s) := by
  cases h : storeWidth op with
  | none =>
    rw [exec_assemble_of_alu f s h]
    simp only [executePhase, h]
    rfl
  | some w =>
    rw [exec_assemble_of_store f s h]
    simp only [executePhase, h, lsuStore, store, State.reg]
    cases memWrite s.cfg s.mem (s.x.read f.rs1 + f.immS) w (s.x.read f.rs2) <;> rfl

end Sys2Proof.Machine.Blocks

/-! ### The step -/

open Sys2Proof Sys2Proof.Machine Sys2Proof.Machine.Blocks

/-- Settles O45: along the cases of a step, each block gives what its operation gives. -/
theorem blockCompositionIsTheStep : Obligations.BlockCompositionIsTheStep := by
  intro s
  rcases step_cases s with ⟨hrun, hstep⟩ | ⟨hrun, hpc, hstep⟩ | ⟨hrun, hpc, hb, hstep⟩ |
    ⟨w, e, hrun, hpc, -, hfetch, hdecode, hstep⟩ | ⟨w, i, hrun, hpc, -, hfetch, hdecode, hstep⟩
  · simp [hstep, stepController, hrun]
  · simp [hstep, stepController, hrun, hpc, State.halt]
  · have hfetch : s.fetch = .error (.outOfBounds .fetch s.pc .w32) :=
      (s.fetch_cases.resolve_left (by simp [hb])).2
    simp [hstep, stepController, hrun, hpc, fetchUnit_eq_fetch, hfetch, State.halt]
  · simp [hstep, stepController, hrun, hpc, fetchUnit_eq_fetch, hfetch, State.halt, instructionDecoder,
      dispatch_of_decode_error hdecode, afterFetch_eq_blocks, fieldsOf]
  · obtain ⟨op, hop, rfl⟩ := dispatch_of_decode_ok hdecode
    rw [hstep, exec_assemble_eq_executePhase]
    simp [stepController, hrun, hpc, fetchUnit_eq_fetch, hfetch, instructionDecoder, hop, afterFetch_eq_blocks]

end

section
/-! Slot 0 over a step (10_state.md R32, R33, R34): phase 3 overwrites what the slot held, and from there on only an
instruction that names it as destination writes it. -/

namespace Sys2Proof.Machine

open Sys2Proof.Claims

/-! ### What slot 0 held is lost at phase 3 -/

/-- Phase 3 clears slot 0 whatever it held (R134). -/
theorem State.afterFetch_setReg_zero (s : State) (v : Word) : (s.setReg 0#5 v).afterFetch = s.afterFetch := by
  have hx : (s.setReg 0#5 v).afterFetch.x = s.afterFetch.x := by
    apply RegFile.ext_read
    intro r
    change (s.setReg 0#5 v).afterFetch.reg r = s.afterFetch.reg r
    by_cases hr : r = 0#5 <;> simp [hr]
  exact congrArg (fun x => { s.afterFetch with x := x }) hx

/-- The phases before dispatch read no slot (R131, R132). -/
theorem fetches_setReg {s : State} {w : InstWord} (h : Fetches s w) (r : RegIdx) (v : Word) :
    Fetches (s.setReg r v) w := h

/-! ### A step by what it reaches -/

/-- Past the fetch, a step is phases 4 and 5 on the state after phase 3 (R139). -/
theorem step_of_fetches {s : State} {w : InstWord} (h : Fetches s w) : step s = dispatchWord w s.afterFetch := by
  obtain ⟨hrun, hpc, hfetch⟩ := h
  simp [step, runPhases, hrun, State.atSentinel, hpc, hfetch]

/-- A step that fetches no word halts in the state it started from (R131, R132). -/
theorem step_halts_of_no_fetch {s : State} (hrun : s.run = .running)
    (h : s.pc = 0#64 ∨ ¬ offset s.cfg s.pc + 4 ≤ s.cfg.memSize) : ∃ r, step s = .next (s.halt r) := by
  have hnot : ¬ (s.pc ≠ 0#64 ∧ inBounds s.cfg s.pc 4 = true) := by
    rw [inBounds_iff]
    tauto
  rcases step_cases s with ⟨hhalted, -⟩ | ⟨-, -, hstep⟩ | ⟨-, -, -, hstep⟩ | ⟨w, e, -, hpc, hb, -⟩ |
    ⟨w, i, -, hpc, hb, -⟩
  · simp [hrun] at hhalted
  · exact ⟨_, hstep⟩
  · exact ⟨_, hstep⟩
  · exact absurd ⟨hpc, hb⟩ hnot
  · exact absurd ⟨hpc, hb⟩ hnot

/-! ### An instruction by the slot it names -/

/-- An instruction that names a destination writes that slot and does nothing else (R160, R180). -/
theorem exec_of_dest {i : Instr} {rd : RegIdx} (h : i.dest = some rd) (s : State) :
    ∃ v, exec i s = .next (s.setReg rd v) := by
  rcases exec_cases i s with ⟨rd', v, hd, -, he⟩ | ⟨f, hd, -⟩ | ⟨f, hd, -⟩
  · obtain rfl : rd' = rd := Option.some.inj (hd.symm.trans h)
    exact ⟨v, he⟩
  · simp [hd] at h
  · simp [hd] at h

/-- An instruction leaves every slot it does not name as destination (R36). -/
theorem exec_reg_of_dest_ne {i : Instr} {s t : State} {r : RegIdx} (he : exec i s = .next t)
    (h : i.dest ≠ some r) : t.reg r = s.reg r := by
  rcases exec_cases i s with ⟨rd, v, hd, -, he'⟩ | ⟨f, -, -, -, he'⟩ | ⟨f, -, -, -, he'⟩ <;>
    obtain rfl := Host.Outcome.next.inj (he'.symm.trans he)
  · have hr : r ≠ rd := fun e => h (e ▸ hd)
    simp [hr]
  · rfl
  · rfl

/-- Phases 4 and 5 leave every slot that the word's instruction, if it has one, does not name (R135, R136). -/
theorem dispatchWord_reg_of_dest_ne {w : InstWord} {s t : State} {r : RegIdx} (hw : dispatchWord w s = .next t)
    (h : ∀ i, decode w = .ok i → i.dest ≠ some r) : t.reg r = s.reg r := by
  unfold dispatchWord at hw
  split at hw
  next i hd => exact exec_reg_of_dest_ne hw (h i hd)
  next =>
    obtain rfl := Host.Outcome.next.inj hw
    rfl

theorem dispatchWord_of_decode_ok {w : InstWord} {i : Instr} (h : decode w = .ok i) (s : State) :
    dispatchWord w s = exec i s := by
  simp [dispatchWord, h]

end Sys2Proof.Machine

/-! ### The statements -/

open Sys2Proof Sys2Proof.Machine Sys2Proof.Claims

/-- Settles O41: both steps fetch the word and go on from the same state after phase 3. -/
theorem slotZeroContentIsNeverRead : Obligations.SlotZeroContentIsNeverRead := by
  intro s w v h
  calc step (s.setReg 0#5 v)
      _ = dispatchWord w (s.setReg 0#5 v).afterFetch := step_of_fetches (fetches_setReg h 0#5 v)
      _ = dispatchWord w s.afterFetch := by rw [s.afterFetch_setReg_zero v]
      _ = step s := (step_of_fetches h).symm

/-- Settles O42: a step with no fetch only halts; any other clears slot 0, and phases 4 and 5 write it only for an
instruction that names it. -/
theorem slotZeroHoldsTheLastWriteSinceItsClear : Obligations.SlotZeroHoldsTheLastWriteSinceItsClear := by
  intro s t hrun hstep
  refine ⟨fun hno => ?_, fun w hf hdest => ?_, fun w i hf hd hdest => ?_⟩
  · obtain ⟨r, hr⟩ := step_halts_of_no_fetch hrun hno
    obtain rfl := Host.Outcome.next.inj (hr.symm.trans hstep)
    exact s.halt_reg r 0#5
  · have hw : dispatchWord w s.afterFetch = .next t := (step_of_fetches hf).symm.trans hstep
    exact (dispatchWord_reg_of_dest_ne hw hdest).trans (by simp)
  · obtain ⟨v, he⟩ := exec_of_dest hdest s.afterFetch
    rw [step_of_fetches hf, dispatchWord_of_decode_ok hd, he] at hstep
    obtain rfl := Host.Outcome.next.inj hstep
    exact ⟨v, he, by simp⟩

end

section
/-! The load and store primitives (20_memory.md R61-R65), and what they make of a load or a fetch after a store (R68,
R79). The one idea: a load whose bytes all lie inside a store gives that part of the stored value. -/

namespace Sys2Proof.Machine

/-! ### The bounds check -/

/-- R61 over the integers, whichever side of `MEM_BASE` the address lies on. -/
theorem offset_eq_emod (c : Config) (addr : Word) :
    (offset c addr : Int) = ((addr.toNat : Int) - c.memBase.toNat) % 2 ^ 64 := by
  have ha := addr.isLt
  have hb := c.memBase.isLt
  rw [offset, BitVec.toNat_sub]
  omega

/-- Memory ends no later than the address space (R10), so no access in bounds wraps, and none starts below
`MEM_BASE`. -/
theorem inBounds_iff_range {c : Config} {addr : Word} {n : Nat} (hc : c.valid) (hn : 0 < n) :
    inBounds c addr n = true ↔ c.memBase.toNat ≤ addr.toNat ∧ addr.toNat + n ≤ c.memBase.toNat + c.memSize := by
  obtain ⟨-, hend⟩ := hc
  have hoff := offset_eq_emod c addr
  have ha := addr.isLt
  rw [inBounds_iff]
  omega

/-- A range of addresses is mapped exactly when its first and last address are. -/
theorem range_iff_forall_mapped {c : Config} {a n : Nat} (hn : 0 < n) :
    c.memBase.toNat ≤ a ∧ a + n ≤ c.memBase.toNat + c.memSize ↔ ∀ k < n, mapped c (a + k) := by
  constructor
  · rintro ⟨hlo, hhi⟩ k hk
    exact ⟨by omega, by omega⟩
  · intro h
    obtain ⟨hlo, -⟩ := h 0 hn
    obtain ⟨-, hhi⟩ := h (n - 1) (by omega)
    omega

/-- In a valid configuration, every part of an access in bounds is in bounds. -/
theorem inBounds_within {c : Config} {addr : Word} {n k j : Nat} (hc : c.valid) (h : inBounds c addr n = true)
    (hj : 0 < j) (hkj : k + j ≤ n) : inBounds c (addr + BitVec.ofNat 64 k) j = true := by
  obtain ⟨hlo, hhi⟩ := (inBounds_iff_range hc (by omega)).1 h
  have hend := hc.2
  rw [inBounds_iff_range hc hj, toNat_add_ofNat]
  omega

/-! ### A load after a store -/

/-- A store that succeeds is in bounds and has written its bytes (R64). -/
theorem memWrite_eq_ok_iff {c : Config} {m m' : Memory} {addr : Word} {w : Width} {v : Word} :
    memWrite c m addr w v = .ok m' ↔ inBounds c addr w.bytes = true ∧ m' = m.writeLE addr w.bytes v := by
  cases h : inBounds c addr w.bytes
  · simp [memWrite_of_outOfBounds h]
  · simp [memWrite_of_inBounds h, eq_comm]

/-- Bytes read from inside a write are the bits of the value written that lie there, zero-extended. -/
theorem Memory.readLE_writeLE_within (m : Memory) (addr : Word) (n : Nat) (v : Word) {k j : Nat} (hn : n ≤ 8)
    (hkj : k + j ≤ n) :
    (m.writeLE addr n v).readLE (addr + BitVec.ofNat 64 k) j = (v.extractLsb' (8 * k) (8 * j)).setWidth 64 := by
  apply BitVec.eq_of_getLsbD_eq
  intro i hi
  rw [Memory.getLsbD_readLE _ _ _ _ (by omega)]
  by_cases hij : i < 8 * j
  · have hbyte : addr + BitVec.ofNat 64 k + BitVec.ofNat 64 (i / 8) = addr + BitVec.ofNat 64 (k + i / 8) := by
      rw [BitVec.ofNat_add, BitVec.add_assoc]
    have hbit : 8 * (k + i / 8) + i % 8 = 8 * k + i := by omega
    rw [hbyte, Memory.byteAt_writeLE _ _ _ _ _ (by omega) hn]
    simp [hij, hi, hbit, Nat.mod_lt]
  · simp [hij]

/-- Reading back all the bytes just written gives the value's low `8n` bits. -/
theorem Memory.readLE_writeLE (m : Memory) (addr : Word) (n : Nat) (v : Word) (hn : n ≤ 8) :
    (m.writeLE addr n v).readLE addr n = (v.extractLsb' 0 (8 * n)).setWidth 64 := by
  simpa using m.readLE_writeLE_within addr n v (k := 0) hn (by omega)

/-- Each byte read after a write is the byte written where the two overlap, and the byte there before elsewhere. -/
theorem Memory.byte_readLE_writeLE (m : Memory) (addr b : Word) (n n' : Nat) (v : Word) {k : Nat} (hn : n ≤ 8)
    (hn' : n' ≤ 8) (hk : k < n') :
    (∀ i < n, b + BitVec.ofNat 64 k = addr + BitVec.ofNat 64 i →
      ((m.writeLE addr n v).readLE b n').extractLsb' (8 * k) 8 = v.extractLsb' (8 * i) 8) ∧
    ((∀ i < n, b + BitVec.ofNat 64 k ≠ addr + BitVec.ofNat 64 i) →
      ((m.writeLE addr n v).readLE b n').extractLsb' (8 * k) 8 = m.byteAt (b + BitVec.ofNat 64 k).toNat) := by
  rw [Memory.byte_readLE _ _ _ _ hn' hk]
  constructor
  · intro i hi heq
    rw [heq, Memory.byteAt_writeLE _ _ _ _ _ hi hn]
  · intro hne
    exact Memory.byteAt_writeLE_other _ _ _ _ _ fun i hi heq => hne i hi (BitVec.eq_of_toNat_eq heq)

/-- A load from inside a store gives the bits of the stored value that lie there (R68). -/
theorem memRead_within_of_memWrite {c : Config} {m m' : Memory} {kind : AccessKind} {addr : Word} {w w' : Width}
    {v : Word} {k : Nat} (hc : c.valid) (h : memWrite c m addr w v = .ok m') (hk : k + w'.bytes ≤ w.bytes) :
    memRead c m' kind (addr + BitVec.ofNat 64 k) w' = .ok ((v.extractLsb' (8 * k) (8 * w'.bytes)).setWidth 64) := by
  obtain ⟨hb, rfl⟩ := memWrite_eq_ok_iff.1 h
  rw [memRead_of_inBounds (inBounds_within hc hb w'.bytes_pos hk),
    Memory.readLE_writeLE_within _ _ _ _ w.bytes_le hk]

/-- An SW in bounds leaves its four bytes written (R203). -/
theorem exec_sw_of_inBounds {rs1 rs2 : RegIdx} {imm : Int} {s : State}
    (h : inBounds s.cfg (effectiveAddress s rs1 imm) 4 = true) :
    exec (.sw rs1 rs2 imm) s = .next { s with mem := s.mem.writeLE (effectiveAddress s rs1 imm) 4 (s.reg rs2) } := by
  rw [(exec_of_storeForm (f := ⟨rs1, rs2, imm, .w32⟩) rfl s).2]
  rcases store_cases (effectiveAddress s rs1 imm) .w32 (s.reg rs2) s with ⟨-, he⟩ | ⟨hout, -⟩
  · exact he
  · simp [Width.bytes, h] at hout

end Sys2Proof.Machine

/-! ### The statements -/

open Sys2Proof Sys2Proof.Machine

/-- Settles O52: in bounds the value's bits are those of a little-endian read; otherwise nothing is read. -/
theorem loadPrimitiveReadsLittleEndian : Obligations.LoadPrimitiveReadsLittleEndian := by
  intro c m kind addr w
  rw [← inBounds_iff]
  refine ⟨fun h => ⟨_, memRead_of_inBounds h, fun k _ => m.getLsbD_readLE addr w.bytes k w.bytes_le⟩, fun h => ?_⟩
  exact memRead_of_outOfBounds (Bool.eq_false_of_not_eq_true h)

/-- Settles O53: in bounds the bytes are those of a little-endian write; otherwise there is no memory to speak of. -/
theorem storePrimitiveWritesLittleEndianOrNothing : Obligations.StorePrimitiveWritesLittleEndianOrNothing := by
  intro c m addr w v
  rw [← inBounds_iff]
  refine ⟨fun h => ⟨_, memWrite_of_inBounds h, fun k hk => ?_, fun a ha => ?_⟩, fun h => ?_⟩
  · exact m.byteAt_writeLE addr w.bytes v k hk w.bytes_le
  · exact m.byteAt_writeLE_other addr w.bytes v a ha
  · exact memWrite_of_outOfBounds (Bool.eq_false_of_not_eq_true h)

/-- Settles O54: byte by byte for a load anywhere; the named cases are loads from inside the store. -/
theorem loadAfterStoreSeesTheBytesItOverlaps : Obligations.LoadAfterStoreSeesTheBytesItOverlaps := by
  intro c m m' kind addr w v hw
  obtain ⟨hb, hm'⟩ := memWrite_eq_ok_iff.1 hw
  refine ⟨fun b w' hb' => ?anyLoad, ?sameLoad, fun k hk hc => ?byteLoad, fun h64 hc => ?upperHalf⟩
  case anyLoad =>
    subst hm'
    exact ⟨_, memRead_of_inBounds (inBounds_iff.2 hb'), Memory.toNat_readLE_lt _ _ _ w'.bytes_le,
      fun k hk => m.byte_readLE_writeLE addr b w.bytes w'.bytes v w.bytes_le w'.bytes_le hk⟩
  case sameLoad =>
    refine ⟨_, memRead_of_inBounds hb, ?_⟩
    have hlt : v.toNat % 2 ^ (8 * w.bytes) < 2 ^ 64 := lt_of_le_of_lt (Nat.mod_le _ _) v.isLt
    rw [hm', Memory.readLE_writeLE _ _ _ _ w.bytes_le]
    simpa using hlt
  case byteLoad => exact memRead_within_of_memWrite hc hw hk
  case upperHalf =>
    subst h64
    have hhalf : (v.extractLsb' 32 32).setWidth 64 = v >>> 32 := by
      apply BitVec.eq_of_toNat_eq
      have := v.isLt
      simp [Nat.shiftRight_eq_div_pow]
      omega
    rw [← hhalf]
    exact memRead_within_of_memWrite (w' := .w32) hc hw (by decide)

/-- Settles O57: the check, the range with no wrap, and the mapped bytes say the same. -/
theorem boundsCheckIsTheMappedRange : Obligations.BoundsCheckIsTheMappedRange := by
  intro c addr w hc
  have hrange : inBounds c addr w.bytes = true ↔
      c.memBase.toNat ≤ addr.toNat ∧ addr.toNat + w.bytes ≤ c.memBase.toNat + c.memSize :=
    inBounds_iff_range hc w.bytes_pos
  exact ⟨inBounds_iff, hrange, hrange.trans (range_iff_forall_mapped w.bytes_pos), offset_eq_emod c addr⟩

/-- Settles O58: the fetch reads back the four bytes that SW wrote. -/
theorem storedWordIsFetchedAtOnce : Obligations.StoredWordIsFetchedAtOnce := by
  intro rs1 rs2 imm s t u hb hexec hmem hcfg hpc
  have hin : inBounds s.cfg (effectiveAddress s rs1 imm) 4 = true := inBounds_iff.2 hb
  obtain rfl := Host.Outcome.next.inj ((exec_sw_of_inBounds hin).symm.trans hexec)
  rcases u.fetch_cases with ⟨-, hf⟩ | ⟨hout, -⟩
  · rw [hf, hmem, hpc, Memory.readLE_writeLE _ _ _ _ (by omega)]
    congr 1
    ext i hi
    simp [show i < 64 by omega]
  · simp [hcfg, hpc, hin] at hout

end

section
/-! The decoder's outputs (30_encoding.md R91-R98) and the dispatch table (R109): each field and immediate by its bits,
the words that each format class leaves unrecognized, and what the words of R111 decode to. -/

namespace Sys2Proof

/-! ### Immediates -/

/-- Sign extension to 64 bits copies the last bit upwards (R99). -/
theorem getLsbD_signExtend_word {n k : Nat} (x : BitVec n) (hk : k < 64) :
    (x.signExtend 64).getLsbD k = if k < n then x.getLsbD k else x.getLsbD (n - 1) := by
  simp only [BitVec.getLsbD_signExtend, hk, decide_true, Bool.true_and, BitVec.msb_eq_getLsbD_last]

/-- Sign extension keeps the value within the range of the narrow immediate. -/
theorem toInt_signExtend_word_range {n : Nat} (x : BitVec n) (hn : n ≤ 64) :
    -2 ^ (n - 1) ≤ (x.signExtend 64).toInt ∧ (x.signExtend 64).toInt < 2 ^ (n - 1) := by
  rw [BitVec.toInt_signExtend_of_le hn]
  exact ⟨x.le_toInt, x.toInt_lt⟩

/-- A word whose bit 0 is clear is an even integer. -/
theorem toInt_even_of_bit_zero {v : Word} (h : v.getLsbD 0 = false) : v.toInt % 2 = 0 := by
  have heven : v.toNat % 2 = 0 := by simpa [BitVec.getLsbD, Nat.testBit_zero] using h
  rw [BitVec.toInt_eq_toNat_cond]
  split <;> omega

section
variable (w : InstWord) {k : Nat}

/-- The bits of imm_I (R93). -/
theorem getLsbD_immIOf (hk : k < 64) :
    (immIOf w).getLsbD k = if k < 12 then w.getLsbD (20 + k) else w.getLsbD 31 := by
  simp only [immIOf, getLsbD_signExtend_word _ hk, BitVec.getLsbD_extractLsb']
  by_cases h : k < 12 <;> simp [h]

/-- The bits of imm_S (R95). -/
theorem getLsbD_immSOf (hk : k < 64) :
    (immSOf w).getLsbD k =
      if k < 5 then w.getLsbD (7 + k) else if k < 12 then w.getLsbD (20 + k) else w.getLsbD 31 := by
  simp only [immSOf, getLsbD_signExtend_word _ hk, BitVec.getLsbD_append, BitVec.getLsbD_extractLsb']
  rcases (by omega : k < 5 ∨ (5 ≤ k ∧ k < 12) ∨ 12 ≤ k) with h | h | h
  · simp [h, show k < 12 by omega]
  · simp [h, show ¬ k < 5 by omega, show k - 5 < 7 by omega, show 25 + (k - 5) = 20 + k by omega]
  · simp [show ¬ k < 5 by omega, show ¬ k < 12 by omega]

/-- The bits of imm_B (R96). -/
theorem getLsbD_immBOf (hk : k < 64) :
    (immBOf w).getLsbD k =
      if k = 0 then false else if k < 5 then w.getLsbD (7 + k) else if k < 11 then w.getLsbD (20 + k)
      else if k = 11 then w.getLsbD 7 else w.getLsbD 31 := by
  simp only [immBOf, getLsbD_signExtend_word _ hk, BitVec.getLsbD_append, BitVec.getLsbD_extractLsb']
  rcases (by omega : k = 0 ∨ (1 ≤ k ∧ k < 5) ∨ (5 ≤ k ∧ k < 11) ∨ k = 11 ∨ k = 12 ∨ 13 ≤ k)
    with rfl | h | h | rfl | rfl | h
  · simp
  · simp [h, show k < 13 by omega, show k ≠ 0 by omega, show k - 1 < 4 by omega, show 8 + (k - 1) = 7 + k by omega]
  · simp [h, show k < 13 by omega, show k ≠ 0 by omega, show ¬ k < 5 by omega, show ¬ k - 1 < 4 by omega,
      show k - 1 - 4 < 6 by omega, show 25 + (k - 1 - 4) = 20 + k by omega]
  · simp
  · simp
  · simp [show ¬ k < 13 by omega, show k ≠ 0 by omega, show ¬ k < 5 by omega, show ¬ k < 11 by omega,
      show k ≠ 11 by omega]

/-- The bits of imm_U (R97). -/
theorem getLsbD_immUOf (hk : k < 64) :
    (immUOf w).getLsbD k = if k < 12 then false else if k < 32 then w.getLsbD k else w.getLsbD 31 := by
  simp only [immUOf, getLsbD_signExtend_word _ hk, BitVec.getLsbD_append, BitVec.getLsbD_extractLsb']
  rcases (by omega : k < 12 ∨ (12 ≤ k ∧ k < 32) ∨ 32 ≤ k) with h | h | h
  · simp [h, show k < 32 by omega]
  · simp [h, show ¬ k < 12 by omega, show k - 12 < 20 by omega]
  · simp [show ¬ k < 12 by omega, show ¬ k < 32 by omega]

/-- The bits of imm_J (R98). -/
theorem getLsbD_immJOf (hk : k < 64) :
    (immJOf w).getLsbD k =
      if k = 0 then false else if k < 11 then w.getLsbD (20 + k) else if k = 11 then w.getLsbD 20
      else if k < 20 then w.getLsbD k else w.getLsbD 31 := by
  simp only [immJOf, getLsbD_signExtend_word _ hk, BitVec.getLsbD_append, BitVec.getLsbD_extractLsb']
  rcases (by omega : k = 0 ∨ (1 ≤ k ∧ k < 11) ∨ k = 11 ∨ (12 ≤ k ∧ k < 20) ∨ k = 20 ∨ 21 ≤ k)
    with rfl | h | rfl | h | rfl | h
  · simp
  · simp [h, show k < 21 by omega, show k ≠ 0 by omega, show k - 1 < 10 by omega, show 21 + (k - 1) = 20 + k by omega]
  · simp
  · simp [h, show k < 21 by omega, show k ≠ 0 by omega, show ¬ k < 11 by omega, show k ≠ 11 by omega,
      show ¬ k - 1 < 10 by omega, show ¬ k - 1 - 10 < 1 by omega, show k - 1 - 10 - 1 < 8 by omega,
      show 12 + (k - 1 - 10 - 1) = k by omega]
  · simp
  · simp [show ¬ k < 21 by omega, show k ≠ 0 by omega, show ¬ k < 11 by omega, show k ≠ 11 by omega,
      show ¬ k < 20 by omega]

/-- The bits of the mask 0x1f are the five that R94 keeps. -/
theorem getLsbD_shamtMask (k : Nat) : (0x1f#64).getLsbD k = decide (k < 5) := by
  change (BitVec.ofNat 64 (2 ^ 5 - 1)).getLsbD k = _
  rw [BitVec.getLsbD_ofNat, Nat.testBit_two_pow_sub_one, ← Bool.decide_and]
  exact decide_eq_decide.2 (by omega)

/-- The shift amount is the masked imm_I (R94). -/
theorem setWidth_shamtOf : (shamtOf w).setWidth 64 = immIOf w &&& 0x1f#64 := by
  apply BitVec.eq_of_getLsbD_eq
  intro k hk
  rw [BitVec.getLsbD_and, getLsbD_immIOf w hk, getLsbD_shamtMask, BitVec.getLsbD_setWidth, shamtOf,
    BitVec.getLsbD_extractLsb']
  by_cases h : k < 5
  · simp [h, hk, show k < 12 by omega]
  · simp [h]

end

/-- No instruction has an operand taken from imm_B, imm_U or imm_J (R96, R97, R98). -/
theorem assemble_unused_immediates (f : Fields) (b u j : Word) (op : Op) :
    assemble { f with immB := b, immU := u, immJ := j } op = assemble f op := by
  cases op <;> rfl

/-! ### Dispatch -/

/-- A funct3 is one of its eight values. -/
theorem funct3_cases (f3 : BitVec 3) :
    f3 = 0 ∨ f3 = 1 ∨ f3 = 2 ∨ f3 = 3 ∨ f3 = 4 ∨ f3 = 5 ∨ f3 = 6 ∨ f3 = 7 := by
  revert f3
  decide

/-- Two operations share a funct3 and are told apart by funct7; no other funct7 selects one (R105, R107). -/
theorem selectByFunct7_eq_none_iff (f7 : BitVec 7) (a b : Op) :
    (if f7 = 0x00#7 then some a else if f7 = 0x20#7 then some b else none) = none ↔ ¬ (f7 = 0x00 ∨ f7 = 0x20) := by
  by_cases h0 : f7 = 0x00#7
  · simp [h0]
  by_cases h20 : f7 = 0x20#7 <;> simp [h0, h20]

/-- The R_TYPE triples with no operation (R104, R105). -/
theorem dispatchR_eq_none_iff (f3 : BitVec 3) (f7 : BitVec 7) :
    dispatchR f3 f7 = none ↔ ¬ (f3 = 0 ∨ f3 = 5 → f7 = 0x00 ∨ f7 = 0x20) := by
  rcases funct3_cases f3 with rfl | rfl | rfl | rfl | rfl | rfl | rfl | rfl <;>
    simp [dispatchR, selectByFunct7_eq_none_iff]

/-- The I_TYPE triples with no operation (R106, R107). -/
theorem dispatchI_eq_none_iff (f3 : BitVec 3) (f7 : BitVec 7) :
    dispatchI f3 f7 = none ↔ ¬ (f3 = 5 → f7 = 0x00 ∨ f7 = 0x20) := by
  rcases funct3_cases f3 with rfl | rfl | rfl | rfl | rfl | rfl | rfl | rfl <;>
    simp [dispatchI, selectByFunct7_eq_none_iff]

/-- The S_TYPE triples with no operation (R108). -/
theorem dispatchS_eq_none_iff (f3 : BitVec 3) : dispatchS f3 = none ↔ ¬ f3.toNat < 4 := by
  rcases funct3_cases f3 with rfl | rfl | rfl | rfl | rfl | rfl | rfl | rfl <;> decide

/-- The triples with no operation: those of the three classes, and every other opcode (R103, R109). -/
theorem dispatch_eq_none_iff (op : BitVec 7) (f3 : BitVec 3) (f7 : BitVec 7) :
    dispatch op f3 f7 = none ↔
      ¬ ((op = 0x33 ∧ (f3 = 0 ∨ f3 = 5 → f7 = 0x00 ∨ f7 = 0x20)) ∨
         (op = 0x13 ∧ (f3 = 5 → f7 = 0x00 ∨ f7 = 0x20)) ∨
         (op = 0x23 ∧ f3.toNat < 4)) := by
  by_cases hR : op = 0x33#7
  · subst hR
    simpa [dispatch] using dispatchR_eq_none_iff f3 f7
  by_cases hI : op = 0x13#7
  · subst hI
    simpa [dispatch] using dispatchI_eq_none_iff f3 f7
  by_cases hS : op = 0x23#7
  · subst hS
    simpa [dispatch] using dispatchS_eq_none_iff f3
  · simp [dispatch, hR, hI, hS]

end Sys2Proof

/-! ### The statements -/

open Sys2Proof

/-- Settles O26: every arm is its line of the dispatch function, and the triples with none are those of
`dispatch_eq_none_iff`. -/
theorem dispatchIsTheTableOfR109 : Obligations.DispatchIsTheTableOfR109 := by
  refine ⟨by decide, fun f7 => ?anyFunct7, dispatch_eq_none_iff, fun w => rfl⟩
  case anyFunct7 => exact ⟨rfl, rfl, rfl, rfl, rfl, rfl, rfl, rfl, rfl, rfl, rfl, rfl, rfl, rfl, rfl, rfl, rfl⟩

/-- Settles O28: the bits of a sign-extended immediate, and the range of its twelve bits. -/
theorem immediatesOfUsedFormats : Obligations.ImmediatesOfUsedFormats := by
  intro w
  obtain ⟨hIlo, hIhi⟩ : -2 ^ 11 ≤ (immIOf w).toInt ∧ (immIOf w).toInt < 2 ^ 11 :=
    toInt_signExtend_word_range _ (by decide)
  obtain ⟨hSlo, hShi⟩ : -2 ^ 11 ≤ (immSOf w).toInt ∧ (immSOf w).toInt < 2 ^ 11 :=
    toInt_signExtend_word_range _ (by decide)
  refine ⟨fun k hk => getLsbD_immIOf w hk, ⟨by omega, by omega⟩, ⟨setWidth_shamtOf w, fun k hk => ?shamtBit⟩,
    fun k hk => getLsbD_immSOf w hk, ⟨by omega, by omega⟩⟩
  case shamtBit => simp [shamtOf, hk]

/-- Settles O29: as for the used immediates; bit 0 of imm_B and imm_J is clear, so both are even. -/
theorem immediatesOfUnusedFormats : Obligations.ImmediatesOfUnusedFormats := by
  intro w
  obtain ⟨hBlo, hBhi⟩ : -2 ^ 12 ≤ (immBOf w).toInt ∧ (immBOf w).toInt < 2 ^ 12 :=
    toInt_signExtend_word_range _ (by decide)
  obtain ⟨hJlo, hJhi⟩ : -2 ^ 20 ≤ (immJOf w).toInt ∧ (immJOf w).toInt < 2 ^ 20 :=
    toInt_signExtend_word_range _ (by decide)
  have hBeven : (immBOf w).toInt % 2 = 0 := toInt_even_of_bit_zero (getLsbD_immBOf w (by decide))
  have hJeven : (immJOf w).toInt % 2 = 0 := toInt_even_of_bit_zero (getLsbD_immJOf w (by decide))
  exact ⟨fun k hk => getLsbD_immBOf w hk, fun k hk => getLsbD_immUOf w hk, fun k hk => getLsbD_immJOf w hk,
    ⟨hBeven, by omega, by omega⟩, ⟨hJeven, by omega, by omega⟩, fun op b u j => assemble_unused_immediates _ b u j op⟩

/-- Settles O27: a field is a run of the word's bits, and five bits are at most 31. -/
theorem fieldsAreTheirBits : Obligations.FieldsAreTheirBits := by
  intro w k
  have hopcode : (opcodeOf w).getLsbD k = (decide (k < 7) && w.getLsbD k) := by simp [opcodeOf]
  have hregister (r : RegIdx) : r.toNat ≤ 31 := Nat.le_of_lt_succ r.isLt
  exact ⟨hopcode, BitVec.getLsbD_extractLsb' 7 5 w k, BitVec.getLsbD_extractLsb' 12 3 w k,
    BitVec.getLsbD_extractLsb' 15 5 w k, BitVec.getLsbD_extractLsb' 20 5 w k, BitVec.getLsbD_extractLsb' 25 7 w k,
    hregister _, hregister _, hregister _⟩

/-- Settles O31: the decoder evaluated on each of the eight words. -/
theorem standardEncodingsExecuteAsBaseOperations : Obligations.StandardEncodingsExecuteAsBaseOperations := by
  refine ⟨?_, ?_, ?_, ?_, ?_, ?_, ?_, ?_⟩ <;> decide

end

section
/-! Fetch, dispatch and runs (40_fetch_dispatch.md R131-R143): the step of each phase that ends it, what a run of `k`
steps keeps, and the bound on how long a core can run. The one idea: a step that leaves the core Running was in bounds
and moved the pc by 4, so it used up four bytes of memory. -/

namespace Sys2Proof.Machine

open Sys2Proof.Claims

/-! ### A step by the phase that ends it -/

theorem step_of_halted {s : State} (h : s.run = .halted) : step s = .next s := by
  simp [step, runPhases, h]

/-- Phase 0 ends the step at `pc = 0` (R131). -/
theorem step_of_zero_pc {s : State} (hrun : s.run = .running) (hpc : s.pc = 0#64) :
    step s = .next (s.halt .sentinelPc) := by
  simp [step, runPhases, hrun, State.atSentinel, hpc]

/-- A fetch that fails ends the step in phase 1 (R132). -/
theorem step_of_fetch_error {s : State} {r : HaltReason} (hrun : s.run = .running) (hpc : s.pc ≠ 0#64)
    (hfetch : s.fetch = .error r) : step s = .next (s.halt r) := by
  simp [step, runPhases, hrun, State.atSentinel, hpc, hfetch]

/-- A triple with no operation ends the step in phase 4 (R135). -/
theorem dispatchWord_of_dispatch_none {w : InstWord} (s : State)
    (h : dispatch (opcodeOf w) (funct3Of w) (funct7Of w) = none) :
    dispatchWord w s = .next (s.halt (.unrecognizedInstruction (opcodeOf w) (funct3Of w) (funct7Of w))) := by
  have hdecode : decode w = .error (.unrecognized (opcodeOf w) (funct3Of w) (funct7Of w)) := by simp [decode, h]
  simp [dispatchWord, hdecode]

/-- The bits of a word fetched are those of the four bytes at `pc`, the byte at the lowest address first (R132). -/
theorem getLsbD_fetched (s : State) {k : Nat} (hk : k < 32) :
    ((s.mem.readLE s.pc 4).setWidth 32).getLsbD k =
      (s.mem.byteAt (s.pc + BitVec.ofNat 64 (k / 8)).toNat).getLsbD (k % 8) := by
  rw [BitVec.getLsbD_setWidth, Memory.getLsbD_readLE _ _ _ _ (by decide)]
  simp [hk]

/-! ### What every step does -/

theorem exec_answers_next (i : Instr) (s : State) : ∃ t, exec i s = .next t := by
  rcases exec_cases i s with ⟨_, _, -, -, h⟩ | ⟨_, -, -, -, h⟩ | ⟨_, -, -, -, h⟩ <;> exact ⟨_, h⟩

theorem step_answers_next (s : State) : ∃ t, step s = .next t := by
  rcases step_cases s with ⟨-, h⟩ | ⟨-, -, h⟩ | ⟨-, -, -, h⟩ | ⟨_, _, -, -, -, -, -, h⟩ | ⟨_, i, -, -, -, -, -, h⟩
  · exact ⟨_, h⟩
  · exact ⟨_, h⟩
  · exact ⟨_, h⟩
  · exact ⟨_, h⟩
  · rw [h]
    exact exec_answers_next i _

/-- No instruction writes the pc or the configuration (R142, R49). -/
theorem exec_pc_cfg {i : Instr} {s t : State} (h : exec i s = .next t) : t.pc = s.pc ∧ t.cfg = s.cfg := by
  rcases exec_cases i s with ⟨_, _, -, -, h'⟩ | ⟨_, -, -, -, h'⟩ | ⟨_, -, -, -, h'⟩ <;>
    obtain rfl := Host.Outcome.next.inj (h'.symm.trans h) <;> exact ⟨rfl, rfl⟩

/-- A step that leaves the core Running started Running, past the sentinel and with its fetch in bounds, and moved the
pc by 4 (R131, R132, R133). -/
theorem step_to_running {s t : State} (h : step s = .next t) (ht : t.run = .running) :
    s.run = .running ∧ s.pc ≠ 0#64 ∧ inBounds s.cfg s.pc 4 = true ∧ t.pc = s.pc + 4#64 ∧ t.cfg = s.cfg := by
  rcases step_cases s with ⟨hrun, h'⟩ | ⟨-, -, h'⟩ | ⟨-, -, -, h'⟩ | ⟨_, _, -, -, -, -, -, h'⟩ |
    ⟨_, i, hrun, hpc, hb, -, -, h'⟩ <;> rw [h'] at h
  · cases h
    simp [ht] at hrun
  · cases h
    simp at ht
  · cases h
    simp at ht
  · cases h
    simp at ht
  · obtain ⟨htpc, htcfg⟩ := exec_pc_cfg h
    exact ⟨hrun, hpc, hb, by simpa using htpc, by simpa using htcfg⟩

/-! ### Runs -/

theorem run_succ_of_step {s t : State} (h : step s = .next t) (k : Nat) :
    Host.Core.run Sys2Proof.core (k + 1) s = Host.Core.run Sys2Proof.core k t := by
  have hcore : Sys2Proof.core.step s = .next t := h
  simp [Host.Core.run, hcore]

theorem run_of_halted {s : State} (h : s.run = .halted) (k : Nat) :
    Host.Core.run Sys2Proof.core k s = .next s := by
  induction k with
  | zero => rfl
  | succ k ih => rw [run_succ_of_step (step_of_halted h), ih]

/-- A core still Running has moved its pc by 4 at each step (R142). -/
theorem run_to_running_pc {k : Nat} {s t : State} (h : Host.Core.run Sys2Proof.core k s = .next t)
    (ht : t.run = .running) : t.pc = s.pc + BitVec.ofNat 64 (4 * k) := by
  induction k generalizing s with
  | zero =>
    cases h
    simp
  | succ k ih =>
    obtain ⟨u, hu⟩ := step_answers_next s
    rw [run_succ_of_step hu] at h
    cases hurun : u.run with
    | halted =>
      obtain rfl := Host.Outcome.next.inj ((run_of_halted hurun k).symm.trans h)
      simp [ht] at hurun
    | running =>
      obtain ⟨-, -, -, hupc, -⟩ := step_to_running hu hurun
      rw [ih h, hupc, BitVec.add_assoc, Nat.mul_succ, Nat.add_comm, BitVec.ofNat_add]

/-! ### How long a core can run -/

/-- A bound on the steps until the core is halted: one per four bytes from the pc to the end of memory, and one for
the step that halts. At `pc = 0` only the latter is left, wherever memory begins. -/
def State.stepsLeft (s : State) : Nat :=
  match s.run with
  | .halted => 0
  | .running => if s.pc = 0#64 then 1 else (s.cfg.memSize - offset s.cfg s.pc) / 4 + 1

theorem State.stepsLeft_of_halted {s : State} (h : s.run = .halted) : s.stepsLeft = 0 := by
  simp [State.stepsLeft, h]

theorem State.stepsLeft_of_running {s : State} (h : s.run = .running) :
    s.stepsLeft = if s.pc = 0#64 then 1 else (s.cfg.memSize - offset s.cfg s.pc) / 4 + 1 := by
  simp [State.stepsLeft, h]

theorem State.stepsLeft_pos {s : State} (h : s.run = .running) : 0 < s.stepsLeft := by
  rw [State.stepsLeft_of_running h]
  split <;> omega

/-- No core can run for longer than the whole of memory lasts (R143). -/
theorem State.stepsLeft_le (s : State) : s.stepsLeft ≤ s.cfg.memSize / 4 + 1 := by
  cases h : s.run with
  | halted => simp [State.stepsLeft_of_halted h]
  | running =>
    rw [State.stepsLeft_of_running h]
    split <;> omega

/-- Four bytes on, the offset is 4 more; only where memory is the whole address space can the pc wrap instead, and
then it wraps to 0 (R10, R61). -/
theorem offset_add_four {c : Config} {pc : Word} (hc : c.valid) (hb : inBounds c pc 4 = true) :
    pc + 4#64 = 0#64 ∨ offset c (pc + 4#64) = offset c pc + 4 := by
  obtain ⟨hlo, hhi⟩ := (inBounds_iff_range hc (by decide)).1 hb
  have hend := hc.2
  have hoff := offset_eq_emod c pc
  have hoff' := offset_eq_emod c (pc + 4#64)
  have hadd : (pc + 4#64).toNat = (pc.toNat + 4) % 2 ^ 64 := toNat_add_ofNat pc 4
  by_cases hwrap : pc.toNat + 4 = 2 ^ 64
  · exact .inl (BitVec.eq_of_toNat_eq (by simp [hadd, hwrap]))
  · right
    omega

/-- Every step of a Running core uses up at least one of the steps left. -/
theorem stepsLeft_step_lt {s t : State} (hc : s.cfg.valid) (hrun : s.run = .running) (h : step s = .next t) :
    t.stepsLeft < s.stepsLeft := by
  cases ht : t.run with
  | halted =>
    rw [State.stepsLeft_of_halted ht]
    exact State.stepsLeft_pos hrun
  | running =>
    obtain ⟨-, hpc, hb, htpc, htcfg⟩ := step_to_running h ht
    have hle : offset s.cfg s.pc + 4 ≤ s.cfg.memSize := inBounds_iff.1 hb
    rw [State.stepsLeft_of_running ht, State.stepsLeft_of_running hrun, if_neg hpc, htpc, htcfg]
    split
    · omega
    · next hne =>
      rw [(offset_add_four hc hb).resolve_left hne]
      omega

/-- A core has halted once the steps left to it are taken. -/
theorem run_halts_of_stepsLeft_le {k : Nat} {s : State} (hc : s.cfg.valid) (hk : s.stepsLeft ≤ k) :
    ∃ t, Host.Core.run Sys2Proof.core k s = .next t ∧ t.run = .halted := by
  induction k generalizing s with
  | zero =>
    cases hrun : s.run with
    | halted => exact ⟨s, rfl, hrun⟩
    | running =>
      have := State.stepsLeft_pos hrun
      omega
  | succ k ih =>
    cases hrun : s.run with
    | halted => exact ⟨s, run_of_halted hrun _, hrun⟩
    | running =>
      obtain ⟨u, hu⟩ := step_answers_next s
      have hlt := stepsLeft_step_lt hc hrun hu
      rw [run_succ_of_step hu]
      cases hurun : u.run with
      | halted => exact ⟨u, run_of_halted hurun k, hurun⟩
      | running =>
        obtain ⟨-, -, -, -, hucfg⟩ := step_to_running hu hurun
        exact ih (hucfg ▸ hc) (by omega)

end Sys2Proof.Machine

/-! ### The statements -/

open Sys2Proof Sys2Proof.Machine Sys2Proof.Claims

/-- Settles O32: a step of a halted core answers the same core, and so by induction does a run. -/
theorem haltedCoreIsFrozen : Obligations.HaltedCoreIsFrozen :=
  fun _ h => ⟨step_of_halted h, run_of_halted h⟩

/-- Settles O33: phase 0 ends the step. -/
theorem zeroPcHaltsWithoutFetching : Obligations.ZeroPcHaltsWithoutFetching :=
  fun _ hrun hpc => step_of_zero_pc hrun hpc

/-- Settles O34: the fetch in bounds is a little-endian read of four bytes; out of bounds it fails and ends the step. -/
theorem fetchReadsFourBytesOrHalts : Obligations.FetchReadsFourBytesOrHalts := by
  intro s hrun hpc
  rw [← inBounds_iff]
  rcases s.fetch_cases with ⟨hb, hfetch⟩ | ⟨hb, hfetch⟩
  · exact ⟨fun _ => ⟨_, hfetch, fun k hk => getLsbD_fetched s hk⟩, fun hnot => absurd hb hnot⟩
  · exact ⟨fun hin => by simp [hb] at hin, fun _ => step_of_fetch_error hrun hpc hfetch⟩

/-- Settles O35: the step is the halt of phase 4 on the state after phase 3. -/
theorem unrecognizedWordHaltsWithItsTriple : Obligations.UnrecognizedWordHaltsWithItsTriple := by
  intro s w hfetch hnone
  refine ⟨_, (step_of_fetches hfetch).trans (dispatchWord_of_dispatch_none _ hnone), rfl, rfl, rfl, ?slot0,
    fun r hr => ?others, fun a => rfl, rfl⟩
  case slot0 => simp
  case others => simp [hr]

/-- Settles O43: each step that leaves the core Running adds 4 to the pc, and boot starts it at `MEM_BASE`. -/
theorem runningCoreIsAtPcPlusFourK : Obligations.RunningCoreIsAtPcPlusFourK := by
  have hpc (k : Nat) (s t : State) (h : Host.Core.run Sys2Proof.core k s = .next t) (ht : t.run = .running) :
      t.pc.toNat = (s.pc.toNat + 4 * k) % 2 ^ 64 := by
    rw [run_to_running_pc h ht, toNat_add_ofNat]
  refine ⟨hpc, fun c image regInit memFill s k t hboot h ht => ?_⟩
  obtain ⟨-, bytes, -, -, rfl⟩ := boot_next_iff.1 hboot
  exact hpc k _ t h ht

/-- Settles O44: the steps left are at most `MEM_SIZE / 4 + 1`, and every step of a Running core uses one up. -/
theorem everyRunHaltsWithinMemory : Obligations.EveryRunHaltsWithinMemory :=
  fun s hc => run_halts_of_stepsLeft_le hc s.stepsLeft_le

end

section
/-! The words of an operation (30_encoding.md R100-R109): each operation is selected by its opcode, its funct3 and, where
dispatch consults it, its funct7, and so its words are those of one match and mask. -/

namespace Sys2Proof

open Sys2Proof.Claims

/-! ### A word is its fields -/

theorem formatR_fields (w : InstWord) :
    formatR (funct7Of w) (rs2Of w) (rs1Of w) (funct3Of w) (rdOf w) (opcodeOf w) = w := by
  apply BitVec.eq_of_getLsbD_eq
  intro k hk
  simp only [getLsbD_formatR, opcodeOf, rdOf, funct3Of, rs1Of, rs2Of, funct7Of, BitVec.getLsbD_extractLsb']
  rcases (by omega : k < 7 ∨ (7 ≤ k ∧ k < 12) ∨ (12 ≤ k ∧ k < 15) ∨ (15 ≤ k ∧ k < 20) ∨ (20 ≤ k ∧ k < 25) ∨ 25 ≤ k)
    with h | h | h | h | h | h
  · simp [h]
  · simp [h, show ¬ k < 7 by omega, show k - 7 < 5 by omega]
  · simp [h, show ¬ k < 7 by omega, show ¬ k < 12 by omega, show k - 12 < 3 by omega]
  · simp [h, show ¬ k < 7 by omega, show ¬ k < 12 by omega, show ¬ k < 15 by omega, show k - 15 < 5 by omega]
  · simp [h, show ¬ k < 7 by omega, show ¬ k < 12 by omega, show ¬ k < 15 by omega, show ¬ k < 20 by omega,
      show k - 20 < 5 by omega]
  · simp [h, show ¬ k < 7 by omega, show ¬ k < 12 by omega, show ¬ k < 15 by omega, show ¬ k < 20 by omega,
      show ¬ k < 25 by omega, show k - 25 < 7 by omega]

theorem eq_formatR_iff {w : InstWord} {f7 : BitVec 7} {rs2 rs1 rd : RegIdx} {f3 : BitVec 3} {opcode : BitVec 7} :
    w = formatR f7 rs2 rs1 f3 rd opcode ↔ opcodeOf w = opcode ∧ rdOf w = rd ∧ funct3Of w = f3 ∧ rs1Of w = rs1 ∧
      rs2Of w = rs2 ∧ funct7Of w = f7 := by
  constructor
  · rintro rfl
    simp
  · rintro ⟨rfl, rfl, rfl, rfl, rfl, rfl⟩
    exact (formatR_fields w).symm

/-! A field of a masked word is the field, masked by the mask's own field. -/

section
variable (w m : InstWord)

@[simp] theorem opcodeOf_and : opcodeOf (w &&& m) = opcodeOf w &&& opcodeOf m := BitVec.extractLsb'_and
@[simp] theorem rdOf_and : rdOf (w &&& m) = rdOf w &&& rdOf m := BitVec.extractLsb'_and
@[simp] theorem funct3Of_and : funct3Of (w &&& m) = funct3Of w &&& funct3Of m := BitVec.extractLsb'_and
@[simp] theorem rs1Of_and : rs1Of (w &&& m) = rs1Of w &&& rs1Of m := BitVec.extractLsb'_and
@[simp] theorem rs2Of_and : rs2Of (w &&& m) = rs2Of w &&& rs2Of m := BitVec.extractLsb'_and
@[simp] theorem funct7Of_and : funct7Of (w &&& m) = funct7Of w &&& funct7Of m := BitVec.extractLsb'_and

end

/-- A mask that keeps opcode and funct3 whole, no bit of the registers, and the bits `m7` of funct7. -/
theorem and_mask_eq_iff {w : InstWord} {m7 f7 : BitVec 7} {f3 : BitVec 3} {opcode : BitVec 7} :
    w &&& formatR m7 0 0 7 0 0x7F = formatR f7 0 0 f3 0 opcode ↔
      opcodeOf w = opcode ∧ funct3Of w = f3 ∧ funct7Of w &&& m7 = f7 := by
  have hopcode : opcodeOf w &&& 0x7F#7 = opcodeOf w := BitVec.and_allOnes
  have hfunct3 : funct3Of w &&& 7#3 = funct3Of w := BitVec.and_allOnes
  simp [eq_formatR_iff, hopcode, hfunct3]

/-! ### What selects an operation -/

/-- The opcode of an operation's class (R103). -/
def Op.opcode (op : Op) : BitVec 7 :=
  match op.opClass with
  | .rType => 0x33
  | .iType => 0x13
  | .sType => 0x23

/-- The funct3 that selects an operation in its class (R104, R106, R108). -/
def Op.funct3 : Op → BitVec 3
  | .add | .sub | .addi | .sb => 0
  | .sll | .slli | .sh => 1
  | .slt | .slti | .sw => 2
  | .sltu | .sltiu | .sd => 3
  | .xor | .xori => 4
  | .srl | .sra | .srli | .srai => 5
  | .or | .ori => 6
  | .and | .andi => 7

/-- The funct7 that selects an operation, where dispatch consults it (R102, R105, R107). -/
def Op.funct7 : Op → Option (BitVec 7)
  | .add | .srl | .srli => some 0x00
  | .sub | .sra | .srai => some 0x20
  | .sll | .slt | .sltu | .xor | .or | .and => none
  | .addi | .slli | .slti | .sltiu | .xori | .ori | .andi => none
  | .sb | .sh | .sw | .sd => none

section
variable {op : Op} {f3 : BitVec 3} {f7 : BitVec 7}

/-- Of two operations told apart by funct7, the one selected has its own funct7. -/
theorem selectByFunct7_eq_some {a b : Op}
    (h : (if f7 = 0x00#7 then some a else if f7 = 0x20#7 then some b else none) = some op) :
    (op = a ∧ f7 = 0x00) ∨ (op = b ∧ f7 = 0x20) := by
  split at h
  · next h0 => exact .inl ⟨(Option.some.inj h).symm, h0⟩
  · split at h
    · next h20 => exact .inr ⟨(Option.some.inj h).symm, h20⟩
    · cases h

theorem fields_of_dispatchR (h : dispatchR f3 f7 = some op) :
    op.opClass = .rType ∧ f3 = op.funct3 ∧ ∀ b ∈ op.funct7, f7 = b := by
  have hconsults : (f3 = 0 ∨ f3 = 5) ∨ f3 = 1 ∨ f3 = 2 ∨ f3 = 3 ∨ f3 = 4 ∨ f3 = 6 ∨ f3 = 7 := by
    have := funct3_cases f3
    tauto
  rcases hconsults with hconsulted | hother
  · rcases hconsulted with rfl | rfl <;> rcases selectByFunct7_eq_some h with ⟨rfl, rfl⟩ | ⟨rfl, rfl⟩ <;>
      simp [Op.opClass, Op.funct3, Op.funct7]
  · rcases hother with rfl | rfl | rfl | rfl | rfl | rfl <;> cases h <;>
      simp [Op.opClass, Op.funct3, Op.funct7]

theorem fields_of_dispatchI (h : dispatchI f3 f7 = some op) :
    op.opClass = .iType ∧ f3 = op.funct3 ∧ ∀ b ∈ op.funct7, f7 = b := by
  have hconsults : f3 = 5 ∨ f3 = 0 ∨ f3 = 1 ∨ f3 = 2 ∨ f3 = 3 ∨ f3 = 4 ∨ f3 = 6 ∨ f3 = 7 := by
    have := funct3_cases f3
    tauto
  rcases hconsults with rfl | hother
  · rcases selectByFunct7_eq_some h with ⟨rfl, rfl⟩ | ⟨rfl, rfl⟩ <;> simp [Op.opClass, Op.funct3, Op.funct7]
  · rcases hother with rfl | rfl | rfl | rfl | rfl | rfl | rfl <;> cases h <;>
      simp [Op.opClass, Op.funct3, Op.funct7]

theorem fields_of_dispatchS (h : dispatchS f3 = some op) :
    op.opClass = .sType ∧ f3 = op.funct3 ∧ ∀ b ∈ op.funct7, f7 = b := by
  rcases funct3_cases f3 with rfl | rfl | rfl | rfl | rfl | rfl | rfl | rfl <;> cases h <;>
    simp [Op.opClass, Op.funct3, Op.funct7]

/-- The triples that select an operation (R109). -/
theorem dispatch_eq_some_iff {opcode : BitVec 7} :
    dispatch opcode f3 f7 = some op ↔ opcode = op.opcode ∧ f3 = op.funct3 ∧ ∀ b ∈ op.funct7, f7 = b := by
  constructor
  · intro h
    unfold dispatch at h
    split at h
    · next hopcode =>
      obtain ⟨hclass, hfields⟩ := fields_of_dispatchR h
      exact ⟨by simp [Op.opcode, hclass, hopcode], hfields⟩
    split at h
    · next hopcode =>
      obtain ⟨hclass, hfields⟩ := fields_of_dispatchI h
      exact ⟨by simp [Op.opcode, hclass, hopcode], hfields⟩
    split at h
    · next hopcode =>
      obtain ⟨hclass, hfields⟩ := fields_of_dispatchS h
      exact ⟨by simp [Op.opcode, hclass, hopcode], hfields⟩
    · cases h
  · rintro ⟨rfl, rfl, h7⟩
    cases op with
    | add | sub | srl | sra | srli | srai => rw [h7 _ rfl]; rfl
    | _ => rfl

end

/-! ### The words of an operation -/

@[simp] theorem assemble_op (f : Fields) (op : Op) : (assemble f op).op = op := by
  cases op <;> rfl

theorem decode_eq_ok_assemble_iff {w : InstWord} {op : Op} :
    decode w = .ok (assemble (fieldsOf w) op) ↔ dispatch (opcodeOf w) (funct3Of w) (funct7Of w) = some op := by
  constructor
  · intro h
    obtain ⟨op', hop', hi⟩ := dispatch_of_decode_ok h
    have heq : op = op' := by simpa using congrArg Instr.op hi
    rw [hop', heq]
  · intro h
    simp [decode, h]

theorem decode_of_dispatch_none {w : InstWord} (h : dispatch (opcodeOf w) (funct3Of w) (funct7Of w) = none) :
    decode w = .error (.unrecognized (opcodeOf w) (funct3Of w) (funct7Of w)) := by
  simp [decode, h]

/-- The bits that dispatch consults for an operation: opcode, funct3 and, for some operations, funct7. -/
def Op.mask (op : Op) : InstWord := formatR (if op.funct7.isSome then 0x7F else 0) 0 0 7 0 0x7F

/-- The values of those bits that select the operation. -/
def Op.pattern (op : Op) : InstWord := formatR (op.funct7.getD 0) 0 0 op.funct3 0 op.opcode

/-- The words of an operation are those of its match and mask, and their operands are the words' fields. -/
theorem encodedBy_mask_pattern (op : Op) : EncodedBy op.mask op.pattern (fun w => assemble (fieldsOf w) op) := by
  intro w
  have hfunct7 : funct7Of w &&& (if op.funct7.isSome then 0x7F else 0) = op.funct7.getD 0 ↔
      ∀ b ∈ op.funct7, funct7Of w = b := by
    have hall : funct7Of w &&& 0x7F#7 = funct7Of w := BitVec.and_allOnes
    cases op.funct7 <;> simp [hall]
  rw [decode_eq_ok_assemble_iff, dispatch_eq_some_iff, ← hfunct7]
  exact and_mask_eq_iff

/-- Where funct7 tells the operations of an opcode and funct3 apart, its other values select none (R105, R107). -/
theorem otherFunct7Unrecognized {opcode : BitVec 7} {f3 : BitVec 3}
    (h : ∀ f7 : BitVec 7, f7 ≠ 0x00 → f7 ≠ 0x20 → dispatch opcode f3 f7 = none) :
    OtherFunct7Unrecognized opcode f3 := by
  rintro w rfl rfl h0 h20
  exact decode_of_dispatch_none (h _ h0 h20)

/-- A funct7 other than 0x00 and 0x20 selects no R-type operation where dispatch consults it (R105). -/
theorem otherFunct7Unrecognized_rType {f3 : BitVec 3} (h : f3 = 0 ∨ f3 = 5) : OtherFunct7Unrecognized 0x33#7 f3 :=
  otherFunct7Unrecognized fun f7 h0 h20 => by simpa [dispatch_eq_none_iff] using ⟨h, h0, h20⟩

end Sys2Proof

end

section
/-! The ten R-type instructions (41_r_type_alu.md): the words of each, and the value each writes back, said in the
integers or the bits of the two sources. -/

namespace Sys2Proof.Machine

open Sys2Proof.Claims

/-- A write-back completes its instruction: one slot gets the result, and nothing else has changed (R160). -/
theorem completesWriting_of_writeBack {i : Instr} {rd : RegIdx} {s : State} {v : Word} {value : Word → Prop}
    (hexec : exec i s = writeBack rd v s) (hvalue : value v) : CompletesWriting i rd s value := by
  refine ⟨s.setReg rd v, hexec.trans (writeBack_eq rd v s), by simpa using hvalue, fun r hr => ?others, rfl,
    fun _ => rfl, rfl, rfl, rfl⟩
  case others => simp [hr]

/-! ### The results -/

section
variable (a b : Word)

/-- The six bits of a shift amount are its remainder by 64 (R163). -/
theorem regShiftAmount_eq_mod : regShiftAmount b = b.toNat % 64 := by
  simp [regShiftAmount]

theorem toNat_shiftLeft_eq_mul (n : Nat) : (a <<< n).toNat = a.toNat * 2 ^ n % 2 ^ 64 := by
  rw [BitVec.toNat_shiftLeft, Nat.shiftLeft_eq]

theorem toNat_ushiftRight_eq_div (n : Nat) : (a >>> n).toNat = a.toNat / 2 ^ n := by
  rw [BitVec.toNat_ushiftRight, Nat.shiftRight_eq_div_pow]

/-- A shift that copies the sign is a division that rounds toward minus infinity (R168). -/
theorem toInt_sshiftRight_eq_div (n : Nat) : (a.sshiftRight n).toInt = a.toInt / 2 ^ n := by
  rw [BitVec.toInt_sshiftRight, Int.shiftRight_eq_div_pow, Nat.cast_pow, Nat.cast_ofNat]

theorem toNat_sub_eq_emod : ((a - b).toNat : Int) = ((a.toNat : Int) - b.toNat) % 2 ^ 64 := by
  have ha := a.isLt
  have hb := b.isLt
  rw [BitVec.toNat_sub]
  omega

theorem boolWord_ltSigned : boolWord (ltSigned a b) = if a.toInt < b.toInt then 1#64 else 0#64 := by
  simp [boolWord, ltSigned]

theorem boolWord_ltUnsigned : boolWord (ltUnsigned a b) = if a.toNat < b.toNat then 1#64 else 0#64 := by
  simp [boolWord, ltUnsigned]

end

end Sys2Proof.Machine

/-! ### The statements -/

open Sys2Proof Sys2Proof.Machine Sys2Proof.Claims

/-- Settles O1: the word's sum is the sum of the two values modulo 2^64. -/
theorem addWritesSumModulo2To64 : Obligations.AddWritesSumModulo2To64 :=
  ⟨encodedBy_mask_pattern .add, otherFunct7Unrecognized_rType (.inl rfl),
    fun _ rs1 rs2 s => completesWriting_of_writeBack rfl (BitVec.toNat_add (s.reg rs1) (s.reg rs2))⟩

/-- Settles O2: the word's difference is the integer difference modulo 2^64. -/
theorem subWritesDifferenceModulo2To64 : Obligations.SubWritesDifferenceModulo2To64 :=
  ⟨encodedBy_mask_pattern .sub,
    fun _ rs1 rs2 s => completesWriting_of_writeBack rfl (toNat_sub_eq_emod (s.reg rs1) (s.reg rs2))⟩

/-- Settles O3: a left shift is a multiplication by a power of two, and the amount is `x[rs2]` modulo 64. -/
theorem sllShiftsLeftByLowSixBits : Obligations.SllShiftsLeftByLowSixBits := by
  refine ⟨encodedBy_mask_pattern .sll, fun rd rs1 rs2 f7 s => completesWriting_of_writeBack rfl ?_⟩
  rw [← regShiftAmount_eq_mod]
  exact toNat_shiftLeft_eq_mul (s.reg rs1) _

/-- Settles O4: the result is the signed comparison as 0 or 1. -/
theorem sltComparesSigned : Obligations.SltComparesSigned :=
  ⟨encodedBy_mask_pattern .slt,
    fun _ rs1 rs2 _ s => completesWriting_of_writeBack rfl (boolWord_ltSigned (s.reg rs1) (s.reg rs2))⟩

/-- Settles O5: the result is the unsigned comparison as 0 or 1. -/
theorem sltuComparesUnsigned : Obligations.SltuComparesUnsigned :=
  ⟨encodedBy_mask_pattern .sltu,
    fun _ rs1 rs2 _ s => completesWriting_of_writeBack rfl (boolWord_ltUnsigned (s.reg rs1) (s.reg rs2))⟩

/-- Settles O6: the exclusive or of two words, bit by bit. -/
theorem xorWritesBitwiseExclusiveOr : Obligations.XorWritesBitwiseExclusiveOr :=
  ⟨encodedBy_mask_pattern .xor,
    fun _ _ _ _ _ => completesWriting_of_writeBack rfl fun _ _ => BitVec.getLsbD_xor⟩

/-- Settles O7: a right shift that fills with zeros is a division by a power of two. -/
theorem srlShiftsRightFillingZeros : Obligations.SrlShiftsRightFillingZeros := by
  refine ⟨encodedBy_mask_pattern .srl, otherFunct7Unrecognized_rType (.inr rfl),
    fun rd rs1 rs2 s => completesWriting_of_writeBack rfl ?_⟩
  rw [← regShiftAmount_eq_mod]
  exact toNat_ushiftRight_eq_div (s.reg rs1) _

/-- Settles O8: a right shift that copies the sign is a division of the signed value, rounding down. -/
theorem sraShiftsRightFillingSign : Obligations.SraShiftsRightFillingSign := by
  refine ⟨encodedBy_mask_pattern .sra, fun rd rs1 rs2 s => completesWriting_of_writeBack rfl ?_⟩
  rw [← regShiftAmount_eq_mod]
  exact toInt_sshiftRight_eq_div (s.reg rs1) _

/-- Settles O9: the or of two words, bit by bit. -/
theorem orWritesBitwiseOr : Obligations.OrWritesBitwiseOr :=
  ⟨encodedBy_mask_pattern .or,
    fun _ _ _ _ _ => completesWriting_of_writeBack rfl fun _ _ => BitVec.getLsbD_or⟩

/-- Settles O10: the and of two words, bit by bit. -/
theorem andWritesBitwiseAnd : Obligations.AndWritesBitwiseAnd :=
  ⟨encodedBy_mask_pattern .and,
    fun _ _ _ _ _ => completesWriting_of_writeBack rfl fun _ _ => BitVec.getLsbD_and⟩

end

section
/-! The nine I-type instructions (42_i_type_alu.md): the words of each, and the value each writes back, said in the
integers or the bits of the source and of the immediate. -/

namespace Sys2Proof

open Sys2Proof.Claims

/-- A funct7 other than 0x00 and 0x20 selects no right shift of the I-type (R107). -/
theorem otherFunct7Unrecognized_iType : OtherFunct7Unrecognized 0x13#7 5#3 :=
  otherFunct7Unrecognized fun f7 h0 h20 => by simpa [dispatch_eq_none_iff] using ⟨h0, h20⟩

end Sys2Proof

namespace Sys2Proof.Machine

open Sys2Proof.Claims

/-! ### The word of an immediate -/

/-- An immediate that has an encoding is small enough to keep its value as a word (R93). -/
theorem toInt_immWord {imm : Int} (h : immInRange imm = true) : (immWord imm).toInt = imm := by
  obtain ⟨hlo, hhi⟩ : -2048 ≤ imm ∧ imm ≤ 2047 := by simpa [immInRange] using h
  exact BitVec.toInt_ofInt_eq_self (by decide) (by omega) (by omega)

section
variable (imm : Int)

theorem toNat_immWord : ((immWord imm).toNat : Int) = imm % 2 ^ 64 := by
  have hnonneg : 0 ≤ imm % 2 ^ 64 := by omega
  simpa [immWord, BitVec.toNat_ofInt] using hnonneg

/-- Reduction modulo 2^64 keeps the low 64 bits of the two's complement. -/
theorem getLsbD_immWord {k : Nat} (hk : k < 64) : (immWord imm).getLsbD k = intBit imm k := by
  have hpow : (2 : Int) ^ 64 = 2 ^ k * (2 * 2 ^ (63 - k)) := by
    rw [← pow_succ', ← pow_add]
    congr 1
    omega
  have hbit : imm / 2 ^ k % 2 = imm % 2 ^ 64 / 2 ^ k % 2 := by
    conv_lhs => rw [← Int.emod_add_mul_ediv imm (2 ^ 64), hpow, mul_assoc, mul_assoc,
      Int.add_mul_ediv_left _ _ (by positivity), Int.add_mul_emod_self_left, ← hpow]
  rw [← BitVec.testBit_toNat, Nat.testBit_eq_decide_div_mod_eq, intBit, hbit, ← toNat_immWord]
  norm_cast

/-- Adding the immediate's word adds the immediate modulo 2^64 (R181). -/
theorem toNat_add_immWord (a : Word) : ((a + immWord imm).toNat : Int) = (a.toNat + imm) % 2 ^ 64 := by
  have himm := toNat_immWord imm
  rw [BitVec.toNat_add]
  omega

end

end Sys2Proof.Machine

/-! ### The statements -/

open Sys2Proof Sys2Proof.Machine Sys2Proof.Claims

/-- Settles O11: the word's sum is the sum with the immediate modulo 2^64. -/
theorem addiWritesSumWithImmediate : Obligations.AddiWritesSumWithImmediate :=
  ⟨encodedBy_mask_pattern .addi,
    fun _ rs1 imm s => completesWriting_of_writeBack rfl (toNat_add_immWord imm (s.reg rs1))⟩

/-- Settles O12: a left shift is a multiplication by a power of two, and the amount is the five bits of the word. -/
theorem slliShiftsLeftByShamt : Obligations.SlliShiftsLeftByShamt :=
  ⟨encodedBy_mask_pattern .slli,
    fun _ rs1 shamt _ s => completesWriting_of_writeBack rfl (toNat_shiftLeft_eq_mul (s.reg rs1) shamt.toNat)⟩

/-- Settles O13: a well-formed immediate keeps its value as a signed word, so the signed comparison is with it. -/
theorem sltiComparesSignedWithImmediate : Obligations.SltiComparesSignedWithImmediate := by
  refine ⟨encodedBy_mask_pattern .slti, fun rd rs1 imm s hwf => completesWriting_of_writeBack rfl ?_⟩
  rw [boolWord_ltSigned, toInt_immWord hwf]

/-- Settles O14: the immediate's word, read as unsigned, is the immediate modulo 2^64. -/
theorem sltiuComparesUnsignedWithImmediate : Obligations.SltiuComparesUnsignedWithImmediate := by
  refine ⟨encodedBy_mask_pattern .sltiu, fun rd rs1 imm s => completesWriting_of_writeBack rfl ?_⟩
  rw [boolWord_ltUnsigned, ← toNat_immWord]
  norm_cast

/-- Settles O15: the exclusive or with the immediate's word, bit by bit. -/
theorem xoriWritesExclusiveOrWithImmediate : Obligations.XoriWritesExclusiveOrWithImmediate := by
  refine ⟨encodedBy_mask_pattern .xori, fun rd rs1 imm s => completesWriting_of_writeBack rfl fun k hk => ?_⟩
  rw [BitVec.getLsbD_xor, getLsbD_immWord imm hk]

/-- Settles O16: a right shift that fills with zeros is a division by a power of two. -/
theorem srliShiftsRightFillingZerosByShamt : Obligations.SrliShiftsRightFillingZerosByShamt :=
  ⟨encodedBy_mask_pattern .srli, otherFunct7Unrecognized_iType,
    fun _ rs1 shamt s => completesWriting_of_writeBack rfl (toNat_ushiftRight_eq_div (s.reg rs1) shamt.toNat)⟩

/-- Settles O17: a right shift that copies the sign is a division of the signed value, rounding down. -/
theorem sraiShiftsRightFillingSignByShamt : Obligations.SraiShiftsRightFillingSignByShamt :=
  ⟨encodedBy_mask_pattern .srai, otherFunct7Unrecognized_iType,
    fun _ rs1 shamt s => completesWriting_of_writeBack rfl (toInt_sshiftRight_eq_div (s.reg rs1) shamt.toNat)⟩

/-- Settles O18: the or with the immediate's word, bit by bit. -/
theorem oriWritesOrWithImmediate : Obligations.OriWritesOrWithImmediate := by
  refine ⟨encodedBy_mask_pattern .ori, fun rd rs1 imm s => completesWriting_of_writeBack rfl fun k hk => ?_⟩
  rw [BitVec.getLsbD_or, getLsbD_immWord imm hk]

/-- Settles O19: the and with the immediate's word, bit by bit. -/
theorem andiWritesAndWithImmediate : Obligations.AndiWritesAndWithImmediate := by
  refine ⟨encodedBy_mask_pattern .andi, fun rd rs1 imm s => completesWriting_of_writeBack rfl fun k hk => ?_⟩
  rw [BitVec.getLsbD_and, getLsbD_immWord imm hk]

end

section
/-! The four stores (43_s_type_store.md): the words of each, and the bytes each writes. The one idea: a store is its
operands and its width, so what it does is said once for every instruction that has them. -/

namespace Sys2Proof.Machine

open Sys2Proof.Claims

section
variable {i : Instr} {f : StoreForm} {s : State} (hform : storeForm i = some f)
include hform

/-- A store whose bytes are all in bounds writes them and does nothing else (R200). -/
theorem exec_store_of_inBounds (hb : inBounds s.cfg (effectiveAddress s f.base f.imm) f.width.bytes = true) :
    exec i s = .next
      { s with mem := s.mem.writeLE (effectiveAddress s f.base f.imm) f.width.bytes (s.reg f.data) } := by
  rw [(exec_of_storeForm hform s).2]
  rcases store_cases (effectiveAddress s f.base f.imm) f.width (s.reg f.data) s with ⟨-, hstore⟩ | ⟨hout, -⟩
  · exact hstore
  · simp [hb] at hout

/-- A store with a byte out of bounds halts the core and writes nothing (R200). -/
theorem exec_store_of_outOfBounds (hb : inBounds s.cfg (effectiveAddress s f.base f.imm) f.width.bytes = false) :
    exec i s = .next (s.halt (.outOfBounds .store (effectiveAddress s f.base f.imm) f.width)) := by
  rw [(exec_of_storeForm hform s).2]
  rcases store_cases (effectiveAddress s f.base f.imm) f.width (s.reg f.data) s with ⟨hin, -⟩ | ⟨-, hstore⟩
  · simp [hb] at hin
  · exact hstore

/-- What an instruction does follows from its operands as a store: the bytes of a little-endian write, or the halt. -/
theorem storesBytes_of_storeForm : StoresBytes i f.base f.data f.imm f.width s := by
  refine ⟨toNat_add_immWord f.imm (s.reg f.base), fun hin => ?completes, fun hout => ?halts⟩
  case completes =>
    exact ⟨_, exec_store_of_inBounds hform (inBounds_iff.2 hin),
      fun k hk => s.mem.byteAt_writeLE _ _ _ k hk f.width.bytes_le,
      fun a ha => s.mem.byteAt_writeLE_other _ _ _ a ha, ⟨fun _ => rfl, rfl, rfl⟩, rfl, rfl⟩
  case halts =>
    have hb : inBounds s.cfg (effectiveAddress s f.base f.imm) f.width.bytes = false :=
      Bool.eq_false_of_not_eq_true (mt inBounds_iff.1 hout)
    exact ⟨_, exec_store_of_outOfBounds hform hb, rfl, rfl, fun _ => rfl, fun _ => rfl, rfl, rfl⟩

/-- A load of the bytes a store has just written gives the low bits of the value stored, whatever the configuration. -/
theorem memRead_of_exec_store {t : State} (kind : AccessKind)
    (hb : inBounds s.cfg (effectiveAddress s f.base f.imm) f.width.bytes = true) (hexec : exec i s = .next t) :
    memRead t.cfg t.mem kind (effectiveAddress s f.base f.imm) f.width =
      .ok (((s.reg f.data).extractLsb' 0 (8 * f.width.bytes)).setWidth 64) := by
  obtain rfl := Host.Outcome.next.inj ((exec_store_of_inBounds hform hb).symm.trans hexec)
  rw [memRead_of_inBounds hb, Memory.readLE_writeLE _ _ _ _ f.width.bytes_le]

end

end Sys2Proof.Machine

/-! ### The statements -/

open Sys2Proof Sys2Proof.Machine Sys2Proof.Claims

/-- Settles O20: SB is the store of width 8. -/
theorem sbStoresOneByte : Obligations.SbStoresOneByte :=
  ⟨encodedBy_mask_pattern .sb, fun rs1 rs2 imm _ => storesBytes_of_storeForm (f := ⟨rs1, rs2, imm, .w8⟩) rfl⟩

/-- Settles O21: SH is the store of width 16. -/
theorem shStoresTwoBytes : Obligations.ShStoresTwoBytes :=
  ⟨encodedBy_mask_pattern .sh, fun rs1 rs2 imm _ => storesBytes_of_storeForm (f := ⟨rs1, rs2, imm, .w16⟩) rfl⟩

/-- Settles O22: SW is the store of width 32. -/
theorem swStoresFourBytes : Obligations.SwStoresFourBytes :=
  ⟨encodedBy_mask_pattern .sw, fun rs1 rs2 imm _ => storesBytes_of_storeForm (f := ⟨rs1, rs2, imm, .w32⟩) rfl⟩

/-- Settles O23: SD is the store of width 64, and the low 64 bits of the value it stores are the whole value. -/
theorem sdStoresEightBytes : Obligations.SdStoresEightBytes := by
  refine ⟨encodedBy_mask_pattern .sd,
    fun rs1 rs2 imm _ => storesBytes_of_storeForm (f := ⟨rs1, rs2, imm, .w64⟩) rfl,
    fun rs1 rs2 imm s t kind hin hexec => ?roundTrip⟩
  case roundTrip =>
    have hwhole : ((s.reg rs2).extractLsb' 0 64).setWidth 64 = s.reg rs2 := by simp
    have hread := memRead_of_exec_store (f := ⟨rs1, rs2, imm, .w64⟩) rfl kind (inBounds_iff.2 hin) hexec
    exact hread.trans (congrArg Except.ok hwhole)

end

section
/-! The causes of a halt (60_exceptions.md R226, R227): a step of a Running core is one of five, four that halt, each with
its cause, and one that goes on. What the causes leave and when each is recorded are then read off those five. -/

namespace Sys2Proof.Machine

open Sys2Proof.Claims

/-! ### The word fetched -/

/-- A word is fetched only past the sentinel check (R131). -/
theorem pc_ne_zero_of_fetches {s : State} {w : InstWord} (h : Fetches s w) : s.pc ≠ 0#64 := by
  obtain ⟨-, hpc, -⟩ := h
  exact hpc

/-- A word is fetched only in bounds (R132). -/
theorem inBounds_of_fetches {s : State} {w : InstWord} (h : Fetches s w) : inBounds s.cfg s.pc 4 = true := by
  obtain ⟨-, -, hfetch⟩ := h
  rcases s.fetch_cases with ⟨hin, -⟩ | ⟨-, hfail⟩
  · exact hin
  · simp [hfail] at hfetch

/-- A step fetches one word. -/
theorem fetches_iff_eq {s : State} {w v : InstWord} (h : Fetches s w) : Fetches s v ↔ v = w := by
  constructor
  · rintro ⟨-, -, hv⟩
    obtain ⟨-, -, hw⟩ := h
    exact Except.ok.inj (hv.symm.trans hw)
  · rintro rfl
    exact h

theorem dispatch_ne_none_of_decode_ok {w : InstWord} {i : Instr} (h : decode w = .ok i) :
    dispatch (opcodeOf w) (funct3Of w) (funct7Of w) ≠ none := by
  obtain ⟨op, hop, -⟩ := dispatch_of_decode_ok h
  simp [hop]

/-! ### The steps of a Running core -/

/-- Only the stores have a store's operands (R2, R200). -/
theorem opClass_of_storeForm {i : Instr} {f : StoreForm} (h : storeForm i = some f) : i.op.opClass = .sType := by
  cases i with
  | sb | sh | sw | sd => rfl
  | _ => cases h

/-- An instruction leaves the run state and the reason alone, unless it is a store that halts (R200). -/
theorem exec_halts_only_on_store {i : Instr} {s t : State} (h : exec i s = .next t) :
    (t.run = s.run ∧ t.haltReason = s.haltReason) ∨
    ∃ f, storeForm i = some f ∧
      t = s.halt (.outOfBounds .store (effectiveAddress s f.base f.imm) f.width) := by
  rcases exec_cases i s with ⟨rd, v, -, -, hexec⟩ | ⟨f, -, -, -, hexec⟩ | ⟨f, -, hform, -, hexec⟩ <;>
    obtain rfl := Host.Outcome.next.inj (hexec.symm.trans h)
  · exact .inl ⟨rfl, rfl⟩
  · exact .inl ⟨rfl, rfl⟩
  · exact .inr ⟨f, hform, rfl⟩

/-- What a step of a Running core can do, in the order of the phases (R226): halt on the sentinel or on its fetch before
anything has changed, halt after phase 3 on a word with no operation or on a store, or go on and record nothing. -/
theorem running_step_cases {s t : State} (hrun : s.run = .running) (hstep : step s = .next t) :
    (s.pc = 0#64 ∧ t = s.halt .sentinelPc) ∨
    (s.pc ≠ 0#64 ∧ inBounds s.cfg s.pc 4 = false ∧ t = s.halt (.outOfBounds .fetch s.pc .w32)) ∨
    (∃ w, Fetches s w ∧ dispatch (opcodeOf w) (funct3Of w) (funct7Of w) = none ∧
      t = s.afterFetch.halt (.unrecognizedInstruction (opcodeOf w) (funct3Of w) (funct7Of w))) ∨
    (∃ w i f, Fetches s w ∧ decode w = .ok i ∧ storeForm i = some f ∧
      t = s.afterFetch.halt (.outOfBounds .store (effectiveAddress s.afterFetch f.base f.imm) f.width)) ∨
    (∃ w i, Fetches s w ∧ decode w = .ok i ∧ t.run = .running ∧ t.haltReason = s.haltReason) := by
  rcases step_cases s with ⟨hhalted, -⟩ | ⟨-, hpc, h⟩ | ⟨-, hpc, hout, h⟩ | ⟨w, e, -, hpc, -, hfetch, hdecode, h⟩ |
    ⟨w, i, -, hpc, -, hfetch, hdecode, h⟩
  · simp [hrun] at hhalted
  · exact .inl ⟨hpc, Host.Outcome.next.inj (hstep.symm.trans h)⟩
  · exact .inr (.inl ⟨hpc, hout, Host.Outcome.next.inj (hstep.symm.trans h)⟩)
  · exact .inr (.inr (.inl ⟨w, ⟨hrun, hpc, hfetch⟩, dispatch_of_decode_error hdecode,
      Host.Outcome.next.inj (hstep.symm.trans h)⟩))
  · rcases exec_halts_only_on_store (h.symm.trans hstep) with ⟨htrun, htreason⟩ | ⟨f, hform, ht⟩
    · exact .inr (.inr (.inr (.inr ⟨w, i, ⟨hrun, hpc, hfetch⟩, hdecode, htrun.trans hrun, htreason⟩)))
    · exact .inr (.inr (.inr (.inl ⟨w, i, f, ⟨hrun, hpc, hfetch⟩, hdecode, hform, ht⟩)))

/-- Phases 2 and 3 leave every slot but slot 0 (R133, R134). -/
theorem State.afterFetch_reg_of_ne {r : RegIdx} (s : State) (h : r ≠ 0#5) : s.afterFetch.reg r = s.reg r := by
  simp [h]

end Sys2Proof.Machine

/-! ### The statements -/

open Sys2Proof Sys2Proof.Machine Sys2Proof.Claims

/-- Settles O38: the first two causes halt the state the step started from, the last two the state after phase 3. -/
theorem haltLeavesTheStateOfItsCause : Obligations.HaltLeavesTheStateOfItsCause := by
  intro s t hrun hstep hhalted
  have hslot0 : s.afterFetch.reg 0#5 = 0#64 := by simp
  rcases running_step_cases hrun hstep with ⟨hpc, rfl⟩ | ⟨-, -, rfl⟩ | ⟨w, -, -, rfl⟩ | ⟨w, i, f, -, -, -, rfl⟩ |
    ⟨w, i, -, -, htrun, -⟩
  · exact ⟨fun _ _ => rfl, fun _ => rfl, rfl, And.intro hpc ⟨rfl, rfl⟩⟩
  · exact ⟨fun _ _ => rfl, fun _ => rfl, rfl, And.intro rfl ⟨rfl, rfl, rfl⟩⟩
  · exact ⟨fun _ hr => s.afterFetch_reg_of_ne hr, fun _ => rfl, rfl, And.intro rfl hslot0⟩
  · exact ⟨fun _ hr => s.afterFetch_reg_of_ne hr, fun _ => rfl, rfl, And.intro rfl hslot0⟩
  · simp [htrun] at hhalted

/-- Settles O39: each of the five steps meets the condition of its own cause and of no other, since the word fetched, and
so its operation, is the only one. -/
theorem haltCauseIsTheFirstReached : Obligations.HaltCauseIsTheFirstReached := by
  intro s t hrun hnone hstep
  rw [← inBounds_iff]
  rcases running_step_cases hrun hstep with ⟨hpc, rfl⟩ | ⟨hpc, hout, rfl⟩ | ⟨w, hfetch, hdispatch, rfl⟩ |
    ⟨w, i, f, hfetch, hdecode, hform, rfl⟩ | ⟨w, i, hfetch, hdecode, -, htreason⟩
  · have hno (w : InstWord) : ¬ Fetches s w := fun h => pc_ne_zero_of_fetches h hpc
    simp [hpc, hno]
  · have hno (w : InstWord) : ¬ Fetches s w := fun h => by simp [inBounds_of_fetches h] at hout
    simp [hpc, hout, hno]
  · simp [pc_ne_zero_of_fetches hfetch, inBounds_of_fetches hfetch, fetches_iff_eq hfetch, hdispatch]
  · have hop := dispatch_ne_none_of_decode_ok hdecode
    simp [pc_ne_zero_of_fetches hfetch, inBounds_of_fetches hfetch, fetches_iff_eq hfetch, hop, hdecode,
      opClass_of_storeForm hform]
  · have hop := dispatch_ne_none_of_decode_ok hdecode
    simp [pc_ne_zero_of_fetches hfetch, inBounds_of_fetches hfetch, fetches_iff_eq hfetch, hop, htreason, hnone]

end

section
/-! The images that start no core (70_reset_and_hazards.md R252, R253): the counterpart of `boot_next_iff`. -/

namespace Sys2Proof.Machine

/-- Boot refuses to load exactly an unreadable image, or one longer than memory, in a valid configuration. -/
theorem boot_imageLoadFailure_iff {c : Config} {image : Option (List Byte)} {regInit : RegFile}
    {memFill : Nat → Byte} :
    boot c image regInit memFill = .refused .imageLoadFailure ↔
      c.valid ∧ ∀ bytes, image = some bytes → c.memSize < bytes.length := by
  by_cases hvalid : c.valid
  · rw [boot.eq_def, if_pos hvalid, and_iff_right hvalid]
    cases image with
    | none => simp
    | some bytes =>
      by_cases hfits : bytes.length ≤ c.memSize
      · simp [hfits]
      · simp [hfits, Nat.lt_of_not_le hfits]
  · simp [boot, hvalid]

end Sys2Proof.Machine

/-! ### The statements -/

open Sys2Proof Sys2Proof.Machine

/-- Settles O50: an unreadable image has no bytes to fit, and a longer one does not fit. -/
theorem unloadableImageStartsNoCore : Obligations.UnloadableImageStartsNoCore := by
  intro c regInit memFill hvalid
  refine ⟨boot_imageLoadFailure_iff.2 ⟨hvalid, ?unreadable⟩,
    fun image hlong => boot_imageLoadFailure_iff.2 ⟨hvalid, ?tooLong⟩⟩
  case unreadable => rintro bytes ⟨⟩
  case tooLong => rintro bytes ⟨⟩; exact hlong

end

section
/-! Decoding and encoding are inverse (30_encoding.md R90-R109). The one idea: every word is a format R word, so both
directions come down to its fields and to the two places where the halves of a 12-bit immediate stand. -/

namespace Sys2Proof

/-! ### The 12-bit immediates -/

section
variable (w : InstWord) (x : BitVec 12)

/-- An immediate in range has the value of its own twelve bits, sign-extended (R93, R95). -/
theorem toInt_signExtend_immBits {imm : Int} (h : immInRange imm = true) :
    ((immBits imm).signExtend 64).toInt = imm := by
  obtain ⟨hlo, hhi⟩ : -2048 ≤ imm ∧ imm ≤ 2047 := by simpa [immInRange] using h
  rw [BitVec.toInt_signExtend_of_le (by decide)]
  exact BitVec.toInt_ofInt_eq_self (by decide) (by omega) (by omega)

/-- Twelve bits, sign-extended, are the bits of the immediate they stand for. -/
theorem immBits_toInt_signExtend : immBits (x.signExtend 64).toInt = x := by
  rw [BitVec.toInt_signExtend_of_le (by decide)]
  exact BitVec.ofInt_toInt

theorem immInRange_toInt_signExtend : immInRange (x.signExtend 64).toInt = true := by
  obtain ⟨hlo, hhi⟩ : -2 ^ 11 ≤ (x.signExtend 64).toInt ∧ (x.signExtend 64).toInt < 2 ^ 11 :=
    toInt_signExtend_word_range x (by decide)
  simp only [immInRange, Bool.and_eq_true, decide_eq_true_eq]
  omega

/-- `imm_I` stands in the places of funct7 and rs2 (R93). -/
theorem immIOf_eq : immIOf w = (funct7Of w ++ rs2Of w).signExtend 64 := by
  have hjoined : funct7Of w ++ rs2Of w = w.extractLsb' 20 12 :=
    BitVec.extractLsb'_append_extractLsb'_eq_extractLsb' rfl
  rw [hjoined, immIOf]

/-- `imm_S` stands in the places of funct7 and rd (R95). -/
theorem immSOf_eq : immSOf w = (funct7Of w ++ rdOf w).signExtend 64 := rfl

end

/-! ### Decoding an encoding -/

section
variable (imm : BitVec 12) (rs2 rs1 rd : RegIdx) (f3 : BitVec 3) (opcode : BitVec 7)

theorem immIOf_formatI : immIOf (formatI imm rs1 f3 rd opcode) = imm.signExtend 64 := by
  simp [immIOf_eq, formatI_eq_formatR, immHalves_append]

theorem immSOf_formatS : immSOf (formatS imm rs2 rs1 f3 opcode) = imm.signExtend 64 := by
  simp [immSOf_eq, formatS_eq_formatR, immHalves_append]

@[simp] theorem rdOf_formatI : rdOf (formatI imm rs1 f3 rd opcode) = rd := by simp [formatI_eq_formatR]
@[simp] theorem rs1Of_formatI : rs1Of (formatI imm rs1 f3 rd opcode) = rs1 := by simp [formatI_eq_formatR]
@[simp] theorem rs1Of_formatS : rs1Of (formatS imm rs2 rs1 f3 opcode) = rs1 := by simp [formatS_eq_formatR]
@[simp] theorem rs2Of_formatS : rs2Of (formatS imm rs2 rs1 f3 opcode) = rs2 := by simp [formatS_eq_formatR]

end

/-- The word of every instruction selects its operation (R102-R109). -/
theorem dispatch_encode (i : Instr) :
    dispatch (opcodeOf (encode i)) (funct3Of (encode i)) (funct7Of (encode i)) = some i.op := by
  cases i with
  | add => exact Laws.EncodedDispatch.add ..
  | sub => exact Laws.EncodedDispatch.sub ..
  | sll => exact Laws.EncodedDispatch.sll ..
  | slt => exact Laws.EncodedDispatch.slt ..
  | sltu => exact Laws.EncodedDispatch.sltu ..
  | xor => exact Laws.EncodedDispatch.xor ..
  | srl => exact Laws.EncodedDispatch.srl ..
  | sra => exact Laws.EncodedDispatch.sra ..
  | or => exact Laws.EncodedDispatch.or ..
  | and => exact Laws.EncodedDispatch.and ..
  | addi => exact Laws.EncodedDispatch.addi ..
  | slli => exact Laws.EncodedDispatch.slli ..
  | slti => exact Laws.EncodedDispatch.slti ..
  | sltiu => exact Laws.EncodedDispatch.sltiu ..
  | xori => exact Laws.EncodedDispatch.xori ..
  | srli => exact Laws.EncodedDispatch.srli ..
  | srai => exact Laws.EncodedDispatch.srai ..
  | ori => exact Laws.EncodedDispatch.ori ..
  | andi => exact Laws.EncodedDispatch.andi ..
  | sb => exact Laws.EncodedDispatch.sb ..
  | sh => exact Laws.EncodedDispatch.sh ..
  | sw => exact Laws.EncodedDispatch.sw ..
  | sd => exact Laws.EncodedDispatch.sd ..

/-- The fields of the word of a well-formed instruction are its operands (R91-R95, R100). -/
theorem assemble_fieldsOf_encode {i : Instr} (h : i.wellFormed = true) : assemble (fieldsOf (encode i)) i.op = i := by
  cases i with
  | add | sub | sll | slt | sltu | xor | srl | sra | or | and => simp [encode, assemble, fieldsOf, Instr.op]
  | slli | srli | srai => simp [encode, assemble, fieldsOf, Instr.op]
  | addi rd rs1 imm | slti rd rs1 imm | sltiu rd rs1 imm | xori rd rs1 imm | ori rd rs1 imm | andi rd rs1 imm =>
    have himm := toInt_signExtend_immBits h
    simp [encode, assemble, fieldsOf, Instr.op, immIOf_formatI, himm]
  | sb rs1 rs2 imm | sh rs1 rs2 imm | sw rs1 rs2 imm | sd rs1 rs2 imm =>
    have himm := toInt_signExtend_immBits h
    simp [encode, assemble, fieldsOf, Instr.op, immSOf_formatS, himm]

theorem decode_encode {i : Instr} (h : i.wellFormed = true) : decode (encode i) = .ok i := by
  have hdecode := decode_eq_ok_assemble_iff.2 (dispatch_encode i)
  rwa [assemble_fieldsOf_encode h] at hdecode

/-! ### Encoding a decoding -/

/-- A decoded immediate has twelve bits, so what dispatch assembles has an encoding (R93, R95). -/
theorem wellFormed_assemble_fieldsOf (w : InstWord) (op : Op) : (assemble (fieldsOf w) op).wellFormed = true := by
  cases op with
  | addi | slti | sltiu | xori | ori | andi => exact immInRange_toInt_signExtend _
  | sb | sh | sw | sd => exact immInRange_toInt_signExtend _
  | _ => rfl

section
variable {w : InstWord} {f3 : BitVec 3} {opcode : BitVec 7} (hopcode : opcodeOf w = opcode) (hf3 : funct3Of w = f3)
include hopcode hf3

/-- A word is the format I word of its fields (R100). -/
theorem formatI_immIOf : formatI (immBits (immIOf w).toInt) (rs1Of w) f3 (rdOf w) opcode = w := by
  rw [immIOf_eq, immBits_toInt_signExtend, formatI_eq_formatR, BitVec.extractLsb'_append_eq_left,
    BitVec.extractLsb'_append_eq_right, ← hopcode, ← hf3, formatR_fields]

/-- A word is the format S word of its fields (R100). -/
theorem formatS_immSOf : formatS (immBits (immSOf w).toInt) (rs2Of w) (rs1Of w) f3 opcode = w := by
  rw [immSOf_eq, immBits_toInt_signExtend, formatS_eq_formatR, BitVec.extractLsb'_append_eq_left,
    BitVec.extractLsb'_append_eq_right, ← hopcode, ← hf3, formatR_fields]

end

/-- The operation a word selects, with the word's fields, encodes to the word. -/
theorem encode_assemble_fieldsOf {w : InstWord} {op : Op}
    (h : dispatch (opcodeOf w) (funct3Of w) (funct7Of w) = some op) : encode (assemble (fieldsOf w) op) = w := by
  obtain ⟨hopcode, hf3, hf7⟩ := dispatch_eq_some_iff.1 h
  cases op with
  | add | sub | srl | sra | srli | srai => exact (eq_formatR_iff.2 ⟨hopcode, rfl, hf3, rfl, rfl, hf7 _ rfl⟩).symm
  | sll | slt | sltu | xor | or | and | slli => exact (eq_formatR_iff.2 ⟨hopcode, rfl, hf3, rfl, rfl, rfl⟩).symm
  | addi | slti | sltiu | xori | ori | andi => exact formatI_immIOf hopcode hf3
  | sb | sh | sw | sd => exact formatS_immSOf hopcode hf3

/-! ### The bytes of a word -/

/-- The four bytes of a word, joined again from the highest address down (R67). -/
theorem wordBytes_join (w : InstWord) :
    ((w.extractLsb' 24 8 ++ w.extractLsb' 16 8 ++ w.extractLsb' 8 8 ++ w.extractLsb' 0 8).cast rfl : InstWord) = w := by
  have h16 : w.extractLsb' 24 8 ++ w.extractLsb' 16 8 = w.extractLsb' 16 16 :=
    BitVec.extractLsb'_append_extractLsb'_eq_extractLsb' rfl
  have h8 : w.extractLsb' 16 16 ++ w.extractLsb' 8 8 = w.extractLsb' 8 24 :=
    BitVec.extractLsb'_append_extractLsb'_eq_extractLsb' rfl
  have h0 : w.extractLsb' 8 24 ++ w.extractLsb' 0 8 = w.extractLsb' 0 32 :=
    BitVec.extractLsb'_append_extractLsb'_eq_extractLsb' rfl
  rw [h16, h8, h0]
  simp

/-- The bytes of a word decode as the word does, with none left (R67, R90). -/
theorem decodeBytes_wordBytes_eq_ok_iff {w : InstWord} {i : Instr} :
    decodeBytes (wordBytes w) = .ok (i, []) ↔ decode w = .ok i := by
  rw [wordBytes, decodeBytes, wordBytes_join]
  cases decode w <;> simp

end Sys2Proof

/-! ### The statements -/

open Sys2Proof

/-- Settles O24: the word of an instruction dispatches to its operation, and the word's fields are its operands. -/
theorem decodeOfEncodeIsTheInstruction : Obligations.DecodeOfEncodeIsTheInstruction :=
  fun _ h => ⟨decode_encode h, decodeBytes_wordBytes_eq_ok_iff.2 (decode_encode h)⟩

/-- Settles O25: the fields that a word's operation does not keep are fixed by its dispatch. -/
theorem encodeOfDecodeIsTheWord : Obligations.EncodeOfDecodeIsTheWord := by
  intro w i h
  obtain ⟨op, hop, rfl⟩ := dispatch_of_decode_ok h
  exact ⟨wellFormed_assemble_fieldsOf w op, encode_assemble_fieldsOf hop⟩

/-- Settles O30: the decoder evaluated on each of the six words. -/
theorem writtenOutWordsDecode : Obligations.WrittenOutWordsDecode := by
  refine ⟨?_, ?_, ?_, ?_, ?_, ?_⟩ <;> decide

end

section
/-! The canonical form of a memory (10_state.md R44, 20_memory.md R72): it is fixed by its bytes, so memories that read
alike are one list, and to repeat a write changes nothing. -/

namespace Sys2Proof.Machine

/-- The cells of a canonical memory are its bytes that do not read as unlisted. -/
theorem Memory.mem_iff_byteAt {m : Memory} (h : m.wf) (c : Host.Cell) :
    c ∈ m ↔ m.byteAt c.1 = c.2 ∧ c.2 ≠ unlistedByte := by
  obtain ⟨hrising, hlisted⟩ := h
  induction m with
  | nil =>
    have hnil : Memory.byteAt [] c.1 = unlistedByte := rfl
    simp [hnil, eq_comm]
  | cons cell rest ih =>
    obtain ⟨hfirst, hrest⟩ := List.pairwise_cons.1 hrising
    have ih := ih hrest fun d hd => hlisted d (List.mem_cons_of_mem _ hd)
    by_cases hc : cell.1 = c.1
    · have hnot : c ∉ rest := fun hmem => absurd (hfirst c hmem) (by omega)
      have hcell : cell.2 ≠ unlistedByte := hlisted cell List.mem_cons_self
      rw [List.mem_cons, or_iff_left hnot, Memory.byteAt, if_pos hc]
      constructor
      · rintro rfl
        exact ⟨rfl, hcell⟩
      · rintro ⟨hbyte, -⟩
        exact Prod.ext hc.symm hbyte.symm
    · have hne : c ≠ cell := fun e => hc (by rw [e])
      rw [List.mem_cons, or_iff_right hne, ih, Memory.byteAt, if_neg hc]

/-- Canonical memories that read alike at every address are equal. -/
theorem Memory.ext_byteAt {m m' : Memory} (h : m.wf) (h' : m'.wf) (hbytes : ∀ a, m.byteAt a = m'.byteAt a) :
    m = m' := by
  have hasymm : Std.Asymm fun c d : Host.Cell => c.1 < d.1 := ⟨fun _ _ => Nat.lt_asymm⟩
  exact h.1.eq_of_mem_iff h'.1 fun c => by rw [Memory.mem_iff_byteAt h, Memory.mem_iff_byteAt h', hbytes]

/-- A wide write repeated leaves the same memory (R72). -/
theorem Memory.writeLE_writeLE {m : Memory} (addr : Word) (n : Nat) (v : Word) (h : m.wf) (hn : n ≤ 8) :
    (m.writeLE addr n v).writeLE addr n v = m.writeLE addr n v := by
  have hwf := Memory.writeLE_wf addr n v h
  refine Memory.ext_byteAt (Memory.writeLE_wf addr n v hwf) hwf fun a => ?_
  by_cases ha : ∃ i < n, a = (addr + BitVec.ofNat 64 i).toNat
  · obtain ⟨i, hi, rfl⟩ := ha
    rw [Memory.byteAt_writeLE _ _ _ _ _ hi hn, Memory.byteAt_writeLE _ _ _ _ _ hi hn]
  · exact Memory.byteAt_writeLE_other _ _ _ _ _ fun i hi e => ha ⟨i, hi, e⟩

end Sys2Proof.Machine

/-! ### The statements -/

open Sys2Proof Sys2Proof.Machine

/-- Settles O55: the second write leaves every byte as the first has written it. -/
theorem repeatedStoreLeavesTheSameMemory : Obligations.RepeatedStoreLeavesTheSameMemory := by
  intro c m m' addr w v hwf hwrite
  obtain ⟨hin, rfl⟩ := memWrite_eq_ok_iff.1 hwrite
  exact memWrite_eq_ok_iff.2 ⟨hin, (Memory.writeLE_writeLE addr w.bytes v hwf w.bytes_le).symm⟩

/-- Settles O56: a canonical memory is fixed by its bytes, and a byte write keeps the form. -/
theorem canonicalMemoryIsItsBytes : Obligations.CanonicalMemoryIsItsBytes :=
  ⟨fun _ _ => Memory.ext_byteAt, fun _ a b => Memory.setByte_wf a b⟩

end

section
/-! The invariant of the core: every operation of a step keeps it, so every step does, and boot starts in it. -/

namespace Sys2Proof.Machine

/-! ### What keeps the invariant -/

/-- A halt keeps the invariant, since it records a reason (R43, R221). -/
theorem State.Inv.halt {s : State} {r : HaltReason} (h : s.Inv) (hr : r ≠ .none) : (s.halt r).Inv where
  cfgValid := h.cfgValid
  memCanonical := h.memCanonical
  memMapped := h.memMapped
  haltRecorded := by simp [hr]
  pcAligned := h.pcAligned
  pcInReach := h.pcInReach

/-- The invariant says nothing of the slots (R30). -/
theorem State.Inv.setReg {s : State} (h : s.Inv) (r : RegIdx) (v : Word) : (s.setReg r v).Inv :=
  ⟨h.cfgValid, h.memCanonical, h.memMapped, h.haltRecorded, h.pcAligned, h.pcInReach⟩

/-- After a fetch in bounds the pc is at most at the end of memory, and as aligned as before (R40, R133). -/
theorem State.Inv.advancePc {s : State} (h : s.Inv) (hb : inBounds s.cfg s.pc 4 = true) : s.advancePc.Inv where
  cfgValid := h.cfgValid
  memCanonical := h.memCanonical
  memMapped := h.memMapped
  haltRecorded := h.haltRecorded
  pcAligned := by
    have hadd : s.advancePc.pc.toNat = (s.pc.toNat + 4) % 2 ^ 64 := toNat_add_ofNat s.pc 4
    have haligned := h.pcAligned
    rw [hadd, State.advancePc_cfg]
    omega
  pcInReach := by
    have hle : offset s.cfg s.pc + 4 ≤ s.cfg.memSize := inBounds_iff.1 hb
    have hoff := offset_eq_emod s.cfg s.pc
    have hoff' := offset_eq_emod s.cfg (s.pc + 4#64)
    have hadd : (s.pc + 4#64).toNat = (s.pc.toNat + 4) % 2 ^ 64 := toNat_add_ofNat s.pc 4
    rw [State.advancePc_pc, State.advancePc_cfg]
    omega

theorem State.Inv.afterFetch {s : State} (h : s.Inv) (hb : inBounds s.cfg s.pc 4 = true) : s.afterFetch.Inv :=
  (h.advancePc hb).setReg 0#5 0#64

/-- A write in bounds keeps the canonical form and lists no address outside memory (R64, R65). -/
theorem State.Inv.writeLE {s : State} (h : s.Inv) {addr : Word} {n : Nat} (v : Word)
    (hb : inBounds s.cfg addr n = true) : { s with mem := s.mem.writeLE addr n v }.Inv where
  cfgValid := h.cfgValid
  memCanonical := Memory.writeLE_wf addr n v h.memCanonical
  memMapped := by
    intro c hc
    rcases Memory.mem_writeLE hc with hold | ⟨i, hi, hnew⟩
    · exact h.memMapped c hold
    · have hbyte := inBounds_within (j := 1) h.cfgValid hb (by decide) hi
      obtain ⟨hlo, hhi⟩ := (inBounds_iff_range h.cfgValid (by decide)).1 hbyte
      rw [hnew]
      exact ⟨hlo, hhi⟩
  haltRecorded := h.haltRecorded
  pcAligned := h.pcAligned
  pcInReach := h.pcInReach

theorem exec_keeps_inv {i : Instr} {s t : State} (h : s.Inv) (hexec : exec i s = .next t) : t.Inv := by
  rcases exec_cases i s with ⟨rd, v, -, -, he⟩ | ⟨f, -, -, hb, he⟩ | ⟨f, -, -, -, he⟩ <;>
    obtain rfl := Host.Outcome.next.inj (he.symm.trans hexec)
  · exact h.setReg rd v
  · exact h.writeLE _ hb
  · exact h.halt nofun

theorem step_keeps_inv {s t : State} (h : s.Inv) (hstep : step s = .next t) : t.Inv := by
  rcases step_cases s with ⟨-, hs⟩ | ⟨-, -, hs⟩ | ⟨-, -, -, hs⟩ | ⟨w, e, -, -, hb, -, -, hs⟩ |
    ⟨w, i, -, -, hb, -, -, hs⟩ <;> rw [hs] at hstep
  · exact Host.Outcome.next.inj hstep ▸ h
  · exact Host.Outcome.next.inj hstep ▸ h.halt nofun
  · exact Host.Outcome.next.inj hstep ▸ h.halt nofun
  · exact Host.Outcome.next.inj hstep ▸ (h.afterFetch hb).halt nofun
  · exact exec_keeps_inv (h.afterFetch hb) hstep

/-! ### Where it starts -/

/-- The state of the R250 table meets the invariant in every valid configuration. -/
theorem initialState_inv {c : Config} (hc : c.valid) (image : List Byte) (regInit : RegFile) (memFill : Nat → Byte) :
    (initialState c image regInit memFill).Inv where
  cfgValid := hc
  memCanonical := fillMemory_wf _ _ _
  memMapped := fun _ => mem_fillMemory
  haltRecorded := by simp [initialState]
  pcAligned := rfl
  pcInReach := by simp [initialState, offset]

theorem boot_inv {c : Config} {image : Option (List Byte)} {regInit : RegFile} {memFill : Nat → Byte} {s : State}
    (h : boot c image regInit memFill = .next s) : s.Inv := by
  obtain ⟨hc, bytes, -, -, rfl⟩ := boot_next_iff.1 h
  exact initialState_inv hc bytes regInit memFill

/-! ### The reset values -/

section
variable (c : Config) (image : List Byte) (regInit : RegFile) (memFill : Nat → Byte)

/-- The slots at reset: `reg_init`, and 0 in slot 0 (R51). -/
theorem initialState_reg (r : RegIdx) :
    (initialState c image regInit memFill).reg r = if r = 0#5 then 0#64 else regInit.read r :=
  RegFile.read_write regInit 0#5 r 0#64

/-- The byte at offset `k` of memory at reset (R53). -/
theorem byteAt_initialState {k : Nat} (hk : k < c.memSize) :
    (initialState c image regInit memFill).mem.byteAt (c.memBase.toNat + k) = initialByte image memFill k := by
  simp [initialState, byteAt_fillMemory, hk]

end

theorem initialByte_of_lt {image : List Byte} {k : Nat} (h : k < image.length) (memFill : Nat → Byte) :
    initialByte image memFill k = image[k] := by
  simp [initialByte, h]

theorem initialByte_of_ge {image : List Byte} {k : Nat} (h : image.length ≤ k) (memFill : Nat → Byte) :
    initialByte image memFill k = memFill k := by
  simp [initialByte, h]

end Sys2Proof.Machine

/-! ### The statements -/

open Sys2Proof Sys2Proof.Machine

/-- Settles O46: along the cases of a step, each operation keeps the invariant. -/
theorem stepKeepsTheInvariant : Obligations.StepKeepsTheInvariant :=
  fun _ _ => step_keeps_inv

/-- Settles O48: boot starts a core only in a valid configuration, and then in the state of R250. -/
theorem everyBootMeetsTheInvariant : Obligations.EveryBootMeetsTheInvariant :=
  fun _ _ _ _ _ => boot_inv

/-- Settles O47: `State.reset` is the state that a boot starts in. -/
theorem resetMeetsTheInvariant : Obligations.ResetMeetsTheInvariant :=
  boot_inv boot_reference

/-- Settles O49: the fields of the state of R250, byte by byte for its memory. -/
theorem bootGivesTheResetValues : Obligations.BootGivesTheResetValues := by
  intro c image regInit memFill hc hfits
  refine ⟨_, boot_next_iff.2 ⟨hc, image, rfl, hfits, rfl⟩, rfl, ?slot0, fun r hr => ?slots, fun k hk => ?imageBytes,
    fun k hpast hk => ?fillBytes, rfl, rfl, rfl⟩
  case slot0 => rw [initialState_reg, if_pos rfl]
  case slots => rw [initialState_reg, if_neg hr]
  case imageBytes => rw [byteAt_initialState _ _ _ _ (hk.trans_le hfits), initialByte_of_lt hk]
  case fillBytes => rw [byteAt_initialState _ _ _ _ hk, initialByte_of_ge hpast]

/-- Settles O51: the reference boot, and the fields of `State.reset`. -/
theorem referenceResetState : Obligations.ReferenceResetState := by
  refine ⟨boot_reference, rfl, rfl, rfl, rfl, fun r => ?slot⟩
  case slot => simp [State.reset, State.reg, RegFile.read]

end

section
/-! What a step reads and changes (40_fetch_dispatch.md R132-R139): it runs the instruction that the four bytes at `pc`
decode to, and changes nothing but what that instruction names. -/

namespace Sys2Proof.Machine

open Sys2Proof.Claims

/-! ### The bytes at the pc -/

/-- The bytes of the word that a fetch in bounds gives are the four at `pc` (R67, R132). -/
theorem wordBytes_fetched (s : State) :
    wordBytes ((s.mem.readLE s.pc 4).setWidth 32) =
      [s.mem.byteAt s.pc.toNat, s.mem.byteAt (s.pc + 1#64).toNat, s.mem.byteAt (s.pc + 2#64).toNat,
        s.mem.byteAt (s.pc + 3#64).toNat] := by
  have hbyte (k : Nat) (hk : k < 4) :
      ((s.mem.readLE s.pc 4).setWidth 32).extractLsb' (8 * k) 8 = s.mem.byteAt (s.pc + BitVec.ofNat 64 k).toNat := by
    rw [← Memory.byte_readLE _ _ _ _ (by decide) hk]
    apply BitVec.eq_of_getLsbD_eq
    intro j hj
    simp [hj, show 8 * k + j < 32 by omega]
  have hfirst := hbyte 0 (by decide)
  rw [BitVec.add_zero] at hfirst
  rw [← hfirst, ← hbyte 1 (by decide), ← hbyte 2 (by decide), ← hbyte 3 (by decide)]
  rfl

/-- A core past the sentinel check whose fetch is in bounds fetches the word whose bytes are at `pc` (R132). -/
theorem fetches_of_inBounds {s : State} (hrun : s.run = .running) (hpc : s.pc ≠ 0#64)
    (hb : inBounds s.cfg s.pc 4 = true) : Fetches s ((s.mem.readLE s.pc 4).setWidth 32) := by
  rcases s.fetch_cases with ⟨-, hfetch⟩ | ⟨hout, -⟩
  · exact ⟨hrun, hpc, hfetch⟩
  · simp [hb] at hout

/-! ### What a step leaves alone -/

/-- A step goes on with the word it fetches, or fetches none and only halts, if it does anything. -/
theorem step_fetches_or_leaves {s t : State} (hstep : step s = .next t) :
    (∃ w, Fetches s w ∧ dispatchWord w s.afterFetch = .next t) ∨
    ((∀ w, ¬ Fetches s w) ∧ t.x = s.x ∧ t.mem = s.mem ∧ t.cfg = s.cfg) := by
  by_cases hfetch : ∃ w, Fetches s w
  · obtain ⟨w, hw⟩ := hfetch
    exact .inl ⟨w, hw, (step_of_fetches hw).symm.trans hstep⟩
  · refine .inr ⟨fun w hw => hfetch ⟨w, hw⟩, ?_⟩
    cases hrun : s.run with
    | halted =>
      obtain rfl := Host.Outcome.next.inj ((step_of_halted hrun).symm.trans hstep)
      exact ⟨rfl, rfl, rfl⟩
    | running =>
      have hno : s.pc = 0#64 ∨ ¬ offset s.cfg s.pc + 4 ≤ s.cfg.memSize := by
        by_contra hyes
        obtain ⟨hpc, hb⟩ := not_or.1 hyes
        exact hfetch ⟨_, fetches_of_inBounds hrun hpc (inBounds_iff.2 (not_not.1 hb))⟩
      obtain ⟨r, hr⟩ := step_halts_of_no_fetch hrun hno
      obtain rfl := Host.Outcome.next.inj (hr.symm.trans hstep)
      exact ⟨rfl, rfl, rfl⟩

/-- Phases 4 and 5 run the instruction that the word decodes to, or only halt (R135, R136). -/
theorem dispatchWord_cases (w : InstWord) (s : State) :
    (∃ i, decode w = .ok i ∧ dispatchWord w s = exec i s) ∨ ∃ r, dispatchWord w s = .next (s.halt r) := by
  cases hdecode : decode w with
  | ok i => exact .inl ⟨i, rfl, dispatchWord_of_decode_ok hdecode s⟩
  | error e => exact .inr ⟨_, dispatchWord_of_dispatch_none s (dispatch_of_decode_error hdecode)⟩

/-- Phases 4 and 5 do not write the configuration (R49). -/
theorem dispatchWord_cfg {w : InstWord} {s t : State} (h : dispatchWord w s = .next t) : t.cfg = s.cfg := by
  rcases dispatchWord_cases w s with ⟨i, -, hw⟩ | ⟨r, hw⟩ <;> rw [hw] at h
  · exact (exec_pc_cfg h).2
  · obtain rfl := Host.Outcome.next.inj h
    rfl

/-- Phases 4 and 5 leave memory as it is unless the word decodes to a store (R75). -/
theorem dispatchWord_mem_of_no_store {w : InstWord} {s t : State}
    (hno : ∀ i, decode w = .ok i → storeForm i = none) (h : dispatchWord w s = .next t) : t.mem = s.mem := by
  rcases dispatchWord_cases w s with ⟨i, hdecode, hw⟩ | ⟨r, hw⟩ <;> rw [hw] at h
  · obtain ⟨rd, v, -, hexec⟩ := exec_of_not_storeForm (hno i hdecode) s
    obtain rfl := Host.Outcome.next.inj (hexec.symm.trans h)
    rfl
  · obtain rfl := Host.Outcome.next.inj h
    rfl

/-- A byte that a store changes is one of its `n` bytes and becomes that byte of the slot stored; the store has then
completed (R200). -/
theorem exec_store_changed_byte {i : Instr} {f : StoreForm} {s t : State} {a : Nat} (hform : storeForm i = some f)
    (hexec : exec i s = .next t) (ha : t.mem.byteAt a ≠ s.mem.byteAt a) :
    t.run = s.run ∧ ∃ k < f.width.bytes, a = (effectiveAddress s f.base f.imm + BitVec.ofNat 64 k).toNat ∧
      t.mem.byteAt a = (s.reg f.data).extractLsb' (8 * k) 8 := by
  cases hb : inBounds s.cfg (effectiveAddress s f.base f.imm) f.width.bytes with
  | false =>
    obtain rfl := Host.Outcome.next.inj ((exec_store_of_outOfBounds hform hb).symm.trans hexec)
    exact absurd rfl ha
  | true =>
    obtain rfl := Host.Outcome.next.inj ((exec_store_of_inBounds hform hb).symm.trans hexec)
    have hwritten : ∃ k < f.width.bytes, a = (effectiveAddress s f.base f.imm + BitVec.ofNat 64 k).toNat := by
      by_contra hnone
      exact ha (Memory.byteAt_writeLE_other _ _ _ _ _ fun k hk e => hnone ⟨k, hk, e⟩)
    obtain ⟨k, hk, rfl⟩ := hwritten
    exact ⟨rfl, k, hk, rfl, Memory.byteAt_writeLE _ _ _ _ _ hk f.width.bytes_le⟩

end Sys2Proof.Machine

/-! ### The statements -/

open Sys2Proof Sys2Proof.Machine Sys2Proof.Claims

/-- Settles O37: each case of a step and of an instruction answers a next state. -/
theorem everyStepAnswersANextState : Obligations.EveryStepAnswersANextState :=
  ⟨step_answers_next, exec_answers_next⟩

/-- Settles O36: the bytes at `pc` are those of the word fetched, so both decode alike. -/
theorem stepRunsTheDecodedInstruction : Obligations.StepRunsTheDecodedInstruction := by
  intro s i hrun hpc hin hbytes
  have hfetch := fetches_of_inBounds hrun hpc (inBounds_iff.2 hin)
  rw [← wordBytes_fetched, decodeBytes_wordBytes_eq_ok_iff] at hbytes
  refine ⟨(step_of_fetches hfetch).trans (dispatchWord_of_decode_ok hbytes _), rfl, ?slot0,
    fun r hr => s.afterFetch_reg_of_ne hr, rfl, rfl, rfl, rfl⟩
  case slot0 => simp

/-- Settles O40: a step that fetches no word leaves the slots and memory; one that does changes what phases 4 and 5
change. -/
theorem stepChangesOnlyWhatItsInstructionNames : Obligations.StepChangesOnlyWhatItsInstructionNames := by
  intro s t hstep
  rcases step_fetches_or_leaves hstep with ⟨w, hw, hdispatch⟩ | ⟨hno, hx, hmem, hcfg⟩
  · have hcfg : t.cfg = s.afterFetch.cfg := dispatchWord_cfg hdispatch
    refine ⟨hcfg, fun r hr hchanged => ?slot, fun hnone a => ?memory,
      fun v i f hv hdecode hform a ha => ?byte⟩
    case slot =>
      by_contra hnot
      have hkeeps : t.reg r = s.afterFetch.reg r :=
        dispatchWord_reg_of_dest_ne hdispatch fun i hd hdest => hnot ⟨w, i, hw, hd, hdest⟩
      exact hchanged (hkeeps.trans (s.afterFetch_reg_of_ne hr))
    case memory =>
      have hkeeps : t.mem = s.afterFetch.mem := dispatchWord_mem_of_no_store
        (fun i hd => Option.eq_none_iff_forall_ne_some.2 fun f hf => hnone ⟨w, i, f, hw, hd, hf⟩) hdispatch
      rw [hkeeps, State.afterFetch_mem]
    case byte =>
      obtain rfl := (fetches_iff_eq hw).1 hv
      rw [dispatchWord_of_decode_ok hdecode] at hdispatch
      obtain ⟨hrun, hbyte⟩ := exec_store_changed_byte hform hdispatch ha
      obtain ⟨hrunning, -⟩ := hw
      exact ⟨hrun.trans hrunning, hbyte⟩
  · exact ⟨hcfg, fun r _ hchanged => absurd (congrArg (RegFile.read · r) hx) hchanged, fun _ a => by rw [hmem],
      fun w _ _ hw => absurd hw (hno w)⟩

end

section
/-! The host's loop (70_reset_and_hazards.md R256, R257). The one idea: one step of the loop, whichever way it ends, goes
on from the state the step leaves, with one dump more if the core is Running there. -/

namespace Sys2Proof.Machine

open Sys2Proof.Claims

/-- The loop does nothing with a halted core (R256). -/
theorem hostRun_of_halted {s : State} (h : s.run = .halted) (k : Nat) : hostRun k s = ([], s) := by
  cases k with
  | zero => rfl
  | succ k => simp [hostRun, h]

section
variable {s t : State} (hstep : step s = .next t) (k : Nat)
include hstep

/-- One more step of the loop: a dump if the core is Running after it, then the loop from there (R256, R257). This is so
of a halted core too, since a step leaves it as it is. -/
theorem hostRun_succ :
    hostRun (k + 1) s = ((if t.run = .running then [t.dump] else []) ++ (hostRun k t).1, (hostRun k t).2) := by
  cases hrun : s.run with
  | halted =>
    obtain rfl := Host.Outcome.next.inj ((step_of_halted hrun).symm.trans hstep)
    simp [hostRun_of_halted hrun, hrun]
  | running =>
    cases ht : t.run with
    | halted => simp [hostRun, hrun, hstep, ht, hostRun_of_halted ht]
    | running => simp [hostRun, hrun, hstep, ht]

theorem stateAfter_succ : stateAfter (k + 1) s = stateAfter k t := by
  rw [stateAfter, run_succ_of_step hstep, stateAfter]

theorem completedSteps_succ :
    completedSteps (k + 1) s = (if t.run = .running then 1 else 0) + completedSteps k t := by
  have hfirst : stateAfter 0 t = some t := rfl
  have hlater : ((fun j => (stateAfter (j + 1) s).any fun u => decide (u.run = .running)) ∘ Nat.succ) =
      fun j => (stateAfter (j + 1) t).any fun u => decide (u.run = .running) :=
    funext fun j => by rw [Function.comp_apply, stateAfter_succ hstep]
  rw [completedSteps, List.range_succ_eq_map, List.filter_cons, List.filter_map, hlater, stateAfter_succ hstep, hfirst]
  by_cases ht : t.run = .running <;> simp [completedSteps, ht, Nat.add_comm]

end

/-! ### The run and its dumps -/

theorem run_eq_hostRun (k : Nat) (s : State) : Host.Core.run Sys2Proof.core k s = .next (hostRun k s).2 := by
  induction k generalizing s with
  | zero => rfl
  | succ k ih =>
    obtain ⟨t, hstep⟩ := step_answers_next s
    rw [run_succ_of_step hstep, hostRun_succ hstep, ih]

theorem length_hostRun (k : Nat) (s : State) : (hostRun k s).1.length = completedSteps k s := by
  induction k generalizing s with
  | zero => rfl
  | succ k ih =>
    obtain ⟨t, hstep⟩ := step_answers_next s
    rw [hostRun_succ hstep, completedSteps_succ hstep, List.length_append, ih]
    split <;> rfl

/-- Dump `j` is that of the state after step `j + 1`, as long as the core is Running there (R257). -/
theorem getElem?_hostRun {k j : Nat} {s u : State} (hj : j < k)
    (hu : Host.Core.run Sys2Proof.core (j + 1) s = .next u) :
    (hostRun k s).1[j]? = if u.run = .running then some u.dump else none := by
  induction k generalizing s j with
  | zero => omega
  | succ k ih =>
    obtain ⟨t, hstep⟩ := step_answers_next s
    rw [run_succ_of_step hstep] at hu
    rw [hostRun_succ hstep]
    cases ht : t.run with
    | halted =>
      obtain rfl := Host.Outcome.next.inj ((run_of_halted ht j).symm.trans hu)
      simp [ht, hostRun_of_halted ht]
    | running =>
      cases j with
      | zero =>
        obtain rfl := Host.Outcome.next.inj hu
        simp [ht]
      | succ j => simpa using ih (Nat.lt_of_succ_lt_succ hj) hu

/-- A core still Running at the end has completed every step. -/
theorem length_hostRun_of_running {k : Nat} {s : State} (h : (hostRun k s).2.run = .running) :
    (hostRun k s).1.length = k := by
  induction k generalizing s with
  | zero => rfl
  | succ k ih =>
    obtain ⟨t, hstep⟩ := step_answers_next s
    rw [hostRun_succ hstep] at h ⊢
    cases ht : t.run with
    | halted => simp [hostRun_of_halted ht, ht] at h
    | running => simpa using ih h

/-! ### A dump -/

theorem length_dump (s : State) : s.dump.length = 32 := by
  have hnames : abiNames.length = 32 := rfl
  simp [State.dump, hnames]

/-- Entry `r` of a dump is slot `r` under its ABI name (R35, R257). -/
theorem getElem?_dump (s : State) (r : RegIdx) :
    s.dump[r.toNat]? = (abiNames[r.toNat]?).map fun name => (name, s.reg r) := by
  have hslot : s.x.toList[r.toNat]? = some (s.reg r) := by
    simp [State.reg, RegFile.read, Vector.get_eq_getElem, r.isLt]
  rw [State.dump, List.zip, List.getElem?_zipWith, hslot]
  cases abiNames[r.toNat]? <;> rfl

end Sys2Proof.Machine

/-! ### The statements -/

open Sys2Proof Sys2Proof.Machine Sys2Proof.Claims

/-- Settles O59: by induction on the steps the host lets pass, one step of its loop at a time. -/
theorem hostLoopRunsAndDumpsEachCompletedStep : Obligations.HostLoopRunsAndDumpsEachCompletedStep := by
  refine ⟨fun k s => ⟨run_eq_hostRun k s, length_hostRun k s, fun j hj u => getElem?_hostRun hj⟩,
    fun k s => length_hostRun_of_running, fun s t _ hstep ht k => ?noDump,
    fun s r => ⟨length_dump s, getElem?_dump s r⟩⟩
  case noDump => simp [hostRun_succ hstep, ht, hostRun_of_halted ht]

end
